-- ==== Sys2Proof/Word.lean ====
section
/-! DEFINITION. The word types of LONG64 and the Value triple (10_state.md R20, 00_scope.md R7). -/

namespace Sys2Proof

/-- A 32-bit word: `low`, `high`, `AUX`, one word of a packet (R7, R20, R32, R70). -/
abbrev Word := BitVec 32

/-- One byte lane of `BYT` (R33). -/
abbrev Byte := BitVec 8

/-- One digit place of `DIG` (R34). -/
abbrev Digit := BitVec 6

/-- The 64-bit pattern of a Value, bit 0 the least significant (R9). -/
abbrev Pattern := BitVec 64

/-- The Value triple (R20): `low` and `high` are bit patterns, `uns` is true for an unsigned Value.
Every one of the 2^65 triples is a legal Value (R100). -/
structure Value where
  low : Word
  high : Word
  uns : Bool
deriving DecidableEq, Repr

end Sys2Proof
end

