-- ==== Sys2Proof/Syntax.lean ====
section
/-! DEFINITION. Packets and commands (30_encoding.md): the five words as delivered, and one constructor of `Instr`
per row of spec/opcode_table.json. -/

namespace Sys2Proof

/-- A command packet: exactly 160 bits, given as five 32-bit words (R70). -/
structure Packet where
  w0 : Word
  w1 : Word
  w2 : Word
  w3 : Word
  w4 : Word
deriving DecidableEq, Repr

/-- Where operand A comes from (R74): `RES` when CHAIN = 1, else the three A fields of the packet. -/
inductive Receiver where
  /-- CHAIN = 1: the whole of `RES`; the packet's A fields are ignored. -/
  | res
  /-- CHAIN = 0: (A_LOW, A_HIGH, A_UNS). -/
  | lit (v : Value)
deriving DecidableEq, Repr

/-- The thirty commands (R75). `a` is the receiver, `b` operand B with all three of its fields. A shift or rotate
count and a radix are `B_LOW` read as a plain integer (R78). One-operand commands hold no B (R76), and CLRERR holds
nothing. A field of a slot that a command ignores (R76) is held here and read by no meaning. -/
inductive Instr where
  /-- 0x00, R100. -/
  | fromBits (a : Receiver)
  /-- 0x01, R103. -/
  | fromInt (a : Receiver)
  /-- 0x02, R106. -/
  | toInt (a : Receiver)
  /-- 0x03, R109. -/
  | toUnsigned (a : Receiver)
  /-- 0x04, R110. -/
  | toSigned (a : Receiver)
  /-- 0x08, R274. -/
  | fromBytesLE (a : Receiver)
  /-- 0x09, R275. -/
  | fromBytesBE (a : Receiver)
  /-- 0x0A, R276. -/
  | toBytesLE (a : Receiver)
  /-- 0x0B, R277. -/
  | toBytesBE (a : Receiver)
  /-- 0x10, R120. -/
  | add (a : Receiver) (b : Value)
  /-- 0x11, R125. -/
  | neg (a : Receiver)
  /-- 0x12, R130. -/
  | sub (a : Receiver) (b : Value)
  /-- 0x13, R140. -/
  | mul (a : Receiver) (b : Value)
  /-- 0x14, R160. -/
  | div (a : Receiver) (b : Value)
  /-- 0x15, R180. -/
  | mod (a : Receiver) (b : Value)
  /-- 0x20, R190. -/
  | and (a : Receiver) (b : Value)
  /-- 0x21, R191. -/
  | or (a : Receiver) (b : Value)
  /-- 0x22, R192. -/
  | xor (a : Receiver) (b : Value)
  /-- 0x23, R193. -/
  | not (a : Receiver)
  /-- 0x24, R200. -/
  | clz (a : Receiver)
  /-- 0x25, R201. -/
  | ctz (a : Receiver)
  /-- 0x28, R210. -/
  | shl (a : Receiver) (count : Nat)
  /-- 0x29, R212. -/
  | shr (a : Receiver) (count : Nat)
  /-- 0x2A, R211. -/
  | shru (a : Receiver) (count : Nat)
  /-- 0x2B, R220. -/
  | rotl (a : Receiver) (count : Nat)
  /-- 0x2C, R221. -/
  | rotr (a : Receiver) (count : Nat)
  /-- 0x30, R231. -/
  | eq (a : Receiver) (b : Value)
  /-- 0x31, R235. -/
  | cmp (a : Receiver) (b : Value)
  /-- 0x38, R250. -/
  | toStr (a : Receiver) (radix : Nat)
  /-- 0x3F, R280. -/
  | clrErr
deriving DecidableEq, Repr

end Sys2Proof
end

