-- ==== Sys2Proof/WellFormed.lean ====
section
/-! DEFINITION. When a command can be put into a packet. Operand words have the width of their packet fields by their
type; the plain integers of R78 (a count, a radix) must fit the 32 bits of `B_LOW` (R72: "a wider number cannot be
presented"). -/

namespace Sys2Proof

/-- A plain integer operand fits `B_LOW` (R72, R78). -/
def fitsField (n : Nat) : Bool := decide (n < 2 ^ 32)

/-- The command can be written as a packet. -/
def Instr.wellFormed : Instr → Bool
  | .fromBits _ => true
  | .fromInt _ => true
  | .toInt _ => true
  | .toUnsigned _ => true
  | .toSigned _ => true
  | .fromBytesLE _ => true
  | .fromBytesBE _ => true
  | .toBytesLE _ => true
  | .toBytesBE _ => true
  | .add _ _ => true
  | .neg _ => true
  | .sub _ _ => true
  | .mul _ _ => true
  | .div _ _ => true
  | .mod _ _ => true
  | .and _ _ => true
  | .or _ _ => true
  | .xor _ _ => true
  | .not _ => true
  | .clz _ => true
  | .ctz _ => true
  | .shl _ count => fitsField count
  | .shr _ count => fitsField count
  | .shru _ count => fitsField count
  | .rotl _ count => fitsField count
  | .rotr _ count => fitsField count
  | .eq _ _ => true
  | .cmp _ _ => true
  | .toStr _ radix => fitsField radix
  | .clrErr => true

end Sys2Proof
end

