-- ==== Sys2Proof/Decode.lean ====
section
/-! DEFINITION. Decode and encode of the one format `P5` (30_encoding.md R70 to R78). Decode is total on any 160 bits
and rejects by name; legality reads `W0` only (R73). The encoder writes zero into every field that the command's
slots do not hold (R90). -/

namespace Sys2Proof

/-- Why a packet spells no command (R77, I1, I2). Performing one raises IllegalCommand (R325). -/
inductive Illegal where
  /-- `W0[31:9]` is not zero. -/
  | reservedBits
  /-- `W0[5:0]` is one of the 34 unassigned tags. -/
  | unassignedTag (tag : BitVec 6)
deriving DecidableEq, Repr

/-- `OP` = `W0[5:0]` (R71). -/
def Packet.op (p : Packet) : BitVec 6 := p.w0.extractLsb' 0 6

/-- `A_UNS` = `W0[6]` (R71). -/
def Packet.aUns (p : Packet) : Bool := p.w0.getLsbD 6

/-- `B_UNS` = `W0[7]` (R71). -/
def Packet.bUns (p : Packet) : Bool := p.w0.getLsbD 7

/-- `CHAIN` = `W0[8]` (R71). -/
def Packet.chain (p : Packet) : Bool := p.w0.getLsbD 8

/-- `RSV` = `W0[31:9]` (R71). -/
def Packet.rsv (p : Packet) : BitVec 23 := p.w0.extractLsb' 9 23

/-- Operand A's slot (R74). -/
def Packet.receiver (p : Packet) : Receiver :=
  match p.chain with
  | true => .res
  | false => .lit { low := p.w1, high := p.w2, uns := p.aUns }

/-- Operand B's slot (R74). -/
def Packet.other (p : Packet) : Value := { low := p.w3, high := p.w4, uns := p.bUns }

/-- `B_LOW` read as a plain integer (R78). -/
def Packet.plain (p : Packet) : Nat := p.w3.toNat

/-- The tag map of R75; the other 34 tags are unassigned (R77). -/
def decodeTag (p : Packet) : Except Illegal Instr :=
  match p.op.toNat with
  | 0x00 => .ok (.fromBits p.receiver)
  | 0x01 => .ok (.fromInt p.receiver)
  | 0x02 => .ok (.toInt p.receiver)
  | 0x03 => .ok (.toUnsigned p.receiver)
  | 0x04 => .ok (.toSigned p.receiver)
  | 0x08 => .ok (.fromBytesLE p.receiver)
  | 0x09 => .ok (.fromBytesBE p.receiver)
  | 0x0A => .ok (.toBytesLE p.receiver)
  | 0x0B => .ok (.toBytesBE p.receiver)
  | 0x10 => .ok (.add p.receiver p.other)
  | 0x11 => .ok (.neg p.receiver)
  | 0x12 => .ok (.sub p.receiver p.other)
  | 0x13 => .ok (.mul p.receiver p.other)
  | 0x14 => .ok (.div p.receiver p.other)
  | 0x15 => .ok (.mod p.receiver p.other)
  | 0x20 => .ok (.and p.receiver p.other)
  | 0x21 => .ok (.or p.receiver p.other)
  | 0x22 => .ok (.xor p.receiver p.other)
  | 0x23 => .ok (.not p.receiver)
  | 0x24 => .ok (.clz p.receiver)
  | 0x25 => .ok (.ctz p.receiver)
  | 0x28 => .ok (.shl p.receiver p.plain)
  | 0x29 => .ok (.shr p.receiver p.plain)
  | 0x2A => .ok (.shru p.receiver p.plain)
  | 0x2B => .ok (.rotl p.receiver p.plain)
  | 0x2C => .ok (.rotr p.receiver p.plain)
  | 0x30 => .ok (.eq p.receiver p.other)
  | 0x31 => .ok (.cmp p.receiver p.other)
  | 0x38 => .ok (.toStr p.receiver p.plain)
  | 0x3F => .ok .clrErr
  | _ => .error (.unassignedTag p.op)

/-- R73: legal when `W0[31:9] = 0` and the tag is assigned. -/
def decode (p : Packet) : Except Illegal Instr :=
  if p.rsv = 0 then decodeTag p else .error .reservedBits

/-- The tag of a command (R75, spec/opcode_table.json). -/
def Instr.tag : Instr → BitVec 6
  | .fromBits _ => 0x00
  | .fromInt _ => 0x01
  | .toInt _ => 0x02
  | .toUnsigned _ => 0x03
  | .toSigned _ => 0x04
  | .fromBytesLE _ => 0x08
  | .fromBytesBE _ => 0x09
  | .toBytesLE _ => 0x0A
  | .toBytesBE _ => 0x0B
  | .add _ _ => 0x10
  | .neg _ => 0x11
  | .sub _ _ => 0x12
  | .mul _ _ => 0x13
  | .div _ _ => 0x14
  | .mod _ _ => 0x15
  | .and _ _ => 0x20
  | .or _ _ => 0x21
  | .xor _ _ => 0x22
  | .not _ => 0x23
  | .clz _ => 0x24
  | .ctz _ => 0x25
  | .shl _ _ => 0x28
  | .shr _ _ => 0x29
  | .shru _ _ => 0x2A
  | .rotl _ _ => 0x2B
  | .rotr _ _ => 0x2C
  | .eq _ _ => 0x30
  | .cmp _ _ => 0x31
  | .toStr _ _ => 0x38
  | .clrErr => 0x3F

/-- `W0` from its fields, RSV zero (R71: `0000 0000 0000 0000 0000 000c baoo oooo`). -/
def header (op : BitVec 6) (aUns bUns chain : Bool) : Word :=
  0#23 ++ BitVec.ofBool chain ++ BitVec.ofBool bUns ++ BitVec.ofBool aUns ++ op

/-- A packet from a tag, the A slot, and the three B fields. CHAIN = 1 writes zero into the A fields (R90). -/
def packetOf (op : BitVec 6) (a : Receiver) (bLow bHigh : Word) (bUns : Bool) : Packet :=
  match a with
  | .res => { w0 := header op false bUns true, w1 := 0, w2 := 0, w3 := bLow, w4 := bHigh }
  | .lit v => { w0 := header op v.uns bUns false, w1 := v.low, w2 := v.high, w3 := bLow, w4 := bHigh }

/-- A one-operand command's packet: the B fields are zero. -/
def packetOne (op : BitVec 6) (a : Receiver) : Packet := packetOf op a 0 0 false

/-- A two-operand command's packet. -/
def packetTwo (op : BitVec 6) (a : Receiver) (b : Value) : Packet := packetOf op a b.low b.high b.uns

/-- A packet whose `B_LOW` is a plain integer (R78), `B_HIGH` = 0 and `B_UNS` = 0 (R90). -/
def packetPlain (op : BitVec 6) (a : Receiver) (n : Nat) : Packet := packetOf op a (BitVec.ofNat 32 n) 0 false

/-- The packet of a command (R71, R75, R90). -/
def encode (i : Instr) : Packet :=
  match i with
  | .fromBits a => packetOne i.tag a
  | .fromInt a => packetOne i.tag a
  | .toInt a => packetOne i.tag a
  | .toUnsigned a => packetOne i.tag a
  | .toSigned a => packetOne i.tag a
  | .fromBytesLE a => packetOne i.tag a
  | .fromBytesBE a => packetOne i.tag a
  | .toBytesLE a => packetOne i.tag a
  | .toBytesBE a => packetOne i.tag a
  | .add a b => packetTwo i.tag a b
  | .neg a => packetOne i.tag a
  | .sub a b => packetTwo i.tag a b
  | .mul a b => packetTwo i.tag a b
  | .div a b => packetTwo i.tag a b
  | .mod a b => packetTwo i.tag a b
  | .and a b => packetTwo i.tag a b
  | .or a b => packetTwo i.tag a b
  | .xor a b => packetTwo i.tag a b
  | .not a => packetOne i.tag a
  | .clz a => packetOne i.tag a
  | .ctz a => packetOne i.tag a
  | .shl a n => packetPlain i.tag a n
  | .shr a n => packetPlain i.tag a n
  | .shru a n => packetPlain i.tag a n
  | .rotl a n => packetPlain i.tag a n
  | .rotr a n => packetPlain i.tag a n
  | .eq a b => packetTwo i.tag a b
  | .cmp a b => packetTwo i.tag a b
  | .toStr a r => packetPlain i.tag a r
  | .clrErr => { w0 := header i.tag false false false, w1 := 0, w2 := 0, w3 := 0, w4 := 0 }

/-- The packet whose words are the 32-bit groups of `w`, `W0` the least significant, every bit from `nbits` up zero:
the numbering of spec/opcode_table.json. The packet is defined on words and has no byte order (R53, R70).
Log entry 7. -/
def packetOfBits (nbits w : Nat) : Packet :=
  let x := w % 2 ^ nbits
  { w0 := BitVec.ofNat 32 x
    w1 := BitVec.ofNat 32 (x / 2 ^ 32)
    w2 := BitVec.ofNat 32 (x / 2 ^ 64)
    w3 := BitVec.ofNat 32 (x / 2 ^ 96)
    w4 := BitVec.ofNat 32 (x / 2 ^ 128) }

/-- The command the decoder reads from the packet with the bits `w`; none where the packet is illegal. -/
def decodeTableWord (nbits w : Nat) : Option Instr := (decode (packetOfBits nbits w)).toOption

end Sys2Proof
end

