-- ==== Sys2Proof/Config.lean ====
section
/-! DEFINITION. The open parameters of an instance (00_scope.md R8; 93_implementation_defined.md I10 to I14)
and the one free value of the host side. -/

namespace Sys2Proof

/-- The parameter `ASR_UNSIGNED_FILL` (R8, R212, D13): which bit SHR fills an unsigned receiver with. -/
inductive AsrUnsignedFill where
  /-- Fill with `A.high[31]` whatever the flag; the spec's default. -/
  | sign
  /-- Fill with 0, so that SHR equals SHRU on an unsigned receiver. -/
  | zero
deriving DecidableEq, Repr

/-- The parameter `DIGIT_CASE` (R8, R258, I11): read by the rendering of `DIG` only, never by the block. -/
inductive DigitCase where
  | lower
  | upper
deriving DecidableEq, Repr

/-- The parameters that a rule of the block reads. R366: fixed for one instance, not varying from command to
command. `REGMAP` and `HANDSHAKE` are read by no rule and `ACCEL_PRESENT` is fixed to absent (R8). -/
structure Config where
  asrUnsignedFill : AsrUnsignedFill
deriving DecidableEq, Repr

/-- The instance with every parameter at the default R8 gives it. -/
def Config.default : Config := { asrUnsignedFill := .sign }

/-- What the host's real-number type makes of an integer it cannot hold exactly (R288: "how it rounds beyond that
is the host's floating-point arithmetic and is not specified"). A free value: it has no body, and nothing of the
block reads it. Log entry 10. -/
opaque Config.hostRounding : Int → Int

end Sys2Proof
end

