-- ==== Sys2Proof/Machine/State.lean ====
section
/-! DEFINITION. The five registers of LONG64 (10_state.md R30 to R36), what the host has delivered and not yet had
performed, and the instance's parameters. -/

namespace Sys2Proof.Machine

/-- The error kinds of `ERR` (R35, R322). The three-bit codes 6 and 7 are never written and have no constructor
(I3). Log entry 4. -/
inductive ErrKind where
  /-- Code 0. -/
  | none
  /-- Code 1; raised by the host-side parser only (R35, R285). -/
  | emptyInput
  /-- Code 2; TOSTR with a radix outside 2..36 (R324). -/
  | invalidRadix
  /-- Code 3; raised by the host-side parser only (R35, R285). -/
  | malformedInput
  /-- Code 4; DIV and MOD with a zero divisor (R323). -/
  | divisionByZero
  /-- Code 5; an illegal packet (R325). -/
  | illegalCommand
deriving DecidableEq, Repr

/-- `DIG` (R34): the sign, the number of digits, and 64 digit places, `digits[0]` the most significant digit. -/
structure DigitString where
  neg : Bool
  len : BitVec 7
  digits : Vector Digit 64
deriving DecidableEq, Repr

/-- What the host can do to the block (R6, R350): deliver a command packet, or assert reset. Reading a register is no
event: it has no effect (R57). -/
inductive HostEvent where
  | command (p : Packet)
  | reset
deriving DecidableEq, Repr

/-- The state. `res` .. `err` are the whole architectural state (R30). `input` and `cfg` are the model's own. -/
structure State where
  /-- `RES`, the last Value result (R31). -/
  res : Value
  /-- `AUX`, the last scalar result (R32). -/
  aux : Word
  /-- `BYT`, the last byte sequence; lane 0 is the source's byte 0 (R33). -/
  byt : Vector Byte 8
  /-- `DIG`, the last digit string (R34). -/
  dig : DigitString
  /-- `ERR`, the latched error kind (R35). -/
  err : ErrKind
  /-- The model's own: the host's deliveries not yet performed, the next one first (R6, R55). Log entry 1. -/
  input : List HostEvent
  /-- The model's own: the parameters of this instance (R8). Log entry 3. -/
  cfg : Config
deriving DecidableEq, Repr

/-- No command and no packet stops the machine: an error is a register write (R330), and every packet in every state
has exactly one outcome (R366). So there is no fault at all: the type has no constructor. This is safe. -/
inductive Fault where
deriving DecidableEq, Repr

/-- The one refusal a meaning could be replaced by. -/
inductive Refusal where
  /-- Raised by an arm of exec that has no meaning yet; no arm of this model raises it. Safe. -/
  | notModelled (mnemonic : String)
deriving DecidableEq, Repr

/-- The empty digit string `DIG` holds after reset, the only one with `LEN = 0` (R34, R45). -/
def DigitString.empty : DigitString := { neg := false, len := 0, digits := Vector.replicate 64 0 }

/-- Every register at its reset value (R45, R351). Nothing has been delivered (log entry 1), and the parameters are
the defaults of R8 (log entry 3). -/
def State.reset : State :=
  { res := { low := 0, high := 0, uns := false }
    aux := 0
    byt := Vector.replicate 8 0
    dig := .empty
    err := .none
    input := []
    cfg := .default }

end Sys2Proof.Machine
end

