-- ==== Sys2Proof/Machine/Values.lean ====
section
/-! DEFINITION. Reading a Value as a pattern and as a number (00_scope.md R9, R10), and the named constants
(10_state.md R22). -/

namespace Sys2Proof

/-- `pat(v) = {v.high, v.low}` (R9). -/
def Value.pat (v : Value) : Pattern := v.high ++ v.low

/-- The Value with a given 64-bit pattern and flag: low = bits 31..0, high = bits 63..32 (R9, R10). -/
def Value.ofPat (p : Pattern) (u : Bool) : Value :=
  { low := p.extractLsb' 0 32, high := p.extractLsb' 32 32, uns := u }

/-- `val(p, u)` for any integer `p`, taken modulo 2^64 (R10). -/
def Value.val (p : Int) (u : Bool) : Value := Value.ofPat (BitVec.ofInt 64 p) u

/-- `num(v)`, the integer a Value represents (R10). -/
def Value.num (v : Value) : Int :=
  if v.uns then (v.pat.toNat : Int)
  else if v.pat.toNat < 2 ^ 63 then (v.pat.toNat : Int)
  else (v.pat.toNat : Int) - 2 ^ 64

/-- `ZERO` (R22). -/
def Value.zero : Value := { low := 0x00000000, high := 0x00000000, uns := false }
/-- `ONE` (R22). -/
def Value.one : Value := { low := 0x00000001, high := 0x00000000, uns := false }
/-- `NEG_ONE` (R22). -/
def Value.negOne : Value := { low := 0xFFFFFFFF, high := 0xFFFFFFFF, uns := false }
/-- `MIN_VALUE` (R22). -/
def Value.minValue : Value := { low := 0x00000000, high := 0x80000000, uns := false }
/-- `MAX_VALUE` (R22). -/
def Value.maxValue : Value := { low := 0xFFFFFFFF, high := 0x7FFFFFFF, uns := false }
/-- `UZERO` (R22). -/
def Value.uzero : Value := { low := 0x00000000, high := 0x00000000, uns := true }
/-- `UONE` (R22). -/
def Value.uone : Value := { low := 0x00000001, high := 0x00000000, uns := true }
/-- `MAX_UNSIGNED_VALUE` (R22). -/
def Value.maxUnsigned : Value := { low := 0xFFFFFFFF, high := 0xFFFFFFFF, uns := true }

end Sys2Proof
end

