-- ==== Sys2Proof/Machine/Flags.lean ====
section
/-! DEFINITION. LONG64 has no flags and no condition codes (10_state.md R42): no command computes a carry, overflow,
zero or sign flag. What stands here are the tests commands make on their operands, and the codes of `ERR`. -/

namespace Sys2Proof

/-- `v.high[31]`, bit 63 of the pattern (R9). -/
def Value.topBit (v : Value) : Bool := v.high.getLsbD 31

/-- `neg?(v)`: signed and top bit set; an unsigned Value is never negative (R10). -/
def Value.isNeg (v : Value) : Bool := !v.uns && v.topBit

/-- An operand is zero when both words are zero, whatever its flag (R147, R163). -/
def Value.isZero (v : Value) : Bool := v.low == 0 && v.high == 0

/-- The magnitude of a number read with the sign `n`: `n ? 2^64 - pat : pat`, formed without overflow (R171, R256). -/
def Value.magnitude (v : Value) (n : Bool) : Nat := if n then 2 ^ 64 - v.pat.toNat else v.pat.toNat

namespace Machine

/-- The legal radixes are exactly 2..36 (R250, R324). -/
def radixLegal (r : Nat) : Bool := decide (2 ≤ r) && decide (r ≤ 36)

/-- The three-bit code of an error kind (R35, R322). -/
def ErrKind.code : ErrKind → BitVec 3
  | .none => 0
  | .emptyInput => 1
  | .invalidRadix => 2
  | .malformedInput => 3
  | .divisionByZero => 4
  | .illegalCommand => 5

end Machine
end Sys2Proof
end

