-- ==== Sys2Proof/Machine/Operands.lean ====
section
/-! DEFINITION. Operand selection and the operand forms (30_encoding.md R74, R78; 44 R205; 47 R271). -/

namespace Sys2Proof.Machine

/-- Operand A after selection (R74): `RES` as held before the command, or the packet's Value. -/
def receiver (a : Receiver) (s : State) : Value :=
  match a with
  | .res => s.res
  | .lit v => v

/-- The count `n = B.low[5:0]` of a shift or rotate (R78, R205). -/
def shiftCount (count : Nat) : Nat := count % 64

/-- Byte lane `i` of a 64-bit pattern: bits `8i+7 .. 8i` (R271, R272). -/
def byteLane (p : Pattern) (i : Nat) : Byte := p.extractLsb' (8 * i) 8

/-- The eight bytes of a pattern with byte 0 in the least significant place: the operand lanes of R271 and the
little-endian layout of R272. -/
def lanesLE (p : Pattern) : Vector Byte 8 :=
  #v[byteLane p 0, byteLane p 1, byteLane p 2, byteLane p 3, byteLane p 4, byteLane p 5, byteLane p 6, byteLane p 7]

/-- The eight bytes of a pattern with byte 0 in the most significant place: the big-endian layout of R273. -/
def lanesBE (p : Pattern) : Vector Byte 8 :=
  #v[byteLane p 7, byteLane p 6, byteLane p 5, byteLane p 4, byteLane p 3, byteLane p 2, byteLane p 1, byteLane p 0]

/-- The eight input bytes `in[0..7]` of FROMBYTES_LE and FROMBYTES_BE (R271). -/
def inputBytes (a : Value) : Vector Byte 8 := lanesLE a.pat

end Sys2Proof.Machine
end

