-- ==== Sys2Proof/Machine/Ops.lean ====
section
/-! DEFINITION. The named operations on the registers: the five register writes, error entry and return from it, the
frame every command is performed in (60_exceptions.md R320), reset, the host's input, and host reads. -/

namespace Sys2Proof.Machine

/-- The outcome of a step of this machine. -/
abbrev Result := Host.Outcome State Fault Refusal

/-- `RES <- v`, all 65 bits at once (R21). -/
def State.writeRes (s : State) (v : Value) : State := { s with res := v }

/-- `AUX <- w` (R32). -/
def State.writeAux (s : State) (w : Word) : State := { s with aux := w }

/-- `BYT <- b` (R33). -/
def State.writeByt (s : State) (b : Vector Byte 8) : State := { s with byt := b }

/-- `DIG <- d` (R34). -/
def State.writeDig (s : State) (d : DigitString) : State := { s with dig := d }

/-- Error entry, `raise k` (R330): `ERR <- k` and nothing else changes. Nothing else is saved, for there is no pc, mode
or vector, and control goes nowhere. -/
def State.raise (s : State) (k : ErrKind) : State := { s with err := k }

/-- The return from an error, CLRERR's effect (R280, R333): `ERR <- NONE`, nothing is restored. -/
def State.clearErr (s : State) : State := { s with err := .none }

/-- The latch, step 1 of the frame (R320, R331): a command other than CLRERR is dropped while an error is held, and has
its effect otherwise. -/
def perform (s : State) (effect : State → State) : Result :=
  if s.err = .none then .next (effect s) else .next s

/-- What an illegal packet does (R320 steps 1 and 2, R325): dropped while an error is held, else IllegalCommand. -/
def performIllegal (s : State) : Result := perform s (fun s => s.raise .illegalCommand)

/-- Reset (R350 to R352): the five registers at their reset values at once. What the host delivers afterwards and the
parameters of the instance are no registers and stay (log entry 14). -/
def State.applyReset (s : State) : State := { State.reset with input := s.input, cfg := s.cfg }

/-- The host's next delivery and the state once it has been taken (R55): none while nothing is delivered. -/
def State.takeEvent (s : State) : Option (HostEvent × State) :=
  match s.input with
  | [] => none
  | e :: rest => some (e, { s with input := rest })

/-- The host delivers `e` ahead of everything else. -/
def State.deliver (s : State) (e : HostEvent) : State := { s with input := e :: s.input }

/-- The registers a host can read (R30). -/
inductive RegName where
  | res
  | aux
  | byt
  | dig
  | err
deriving DecidableEq, Repr

/-- What a host read returns; `ERR` is read as its code (R35). -/
inductive RegValue where
  | value (v : Value)
  | word (w : Word)
  | bytes (b : Vector Byte 8)
  | digits (d : DigitString)
  | code (c : BitVec 3)
deriving DecidableEq, Repr

/-- A host read between commands: a function of the state, with no effect on it (R55, R57). -/
def hostRead (r : RegName) (s : State) : RegValue :=
  match r with
  | .res => .value s.res
  | .aux => .word s.aux
  | .byt => .bytes s.byt
  | .dig => .digits s.dig
  | .err => .code s.err.code

end Sys2Proof.Machine
end

