-- ==== Sys2Proof/Machine/Bytes.lean ====
section
/-! DEFINITION. FROMBYTES_LE, FROMBYTES_BE, TOBYTES_LE, TOBYTES_BE (47_byte_serialization.md R270 to R277). -/

namespace Sys2Proof

/-- `b3:b2:b1:b0`, `b3` the most significant byte (R274). -/
def wordOfBytes (b3 b2 b1 b0 : Byte) : Word := b3 ++ b2 ++ b1 ++ b0

/-- The Value of a little-endian byte sequence (R274, the inverse of R272). -/
def Value.ofBytesLE (b : Vector Byte 8) (u : Bool) : Value :=
  { low := wordOfBytes b[3] b[2] b[1] b[0], high := wordOfBytes b[7] b[6] b[5] b[4], uns := u }

/-- The Value of a big-endian byte sequence (R275, the inverse of R273). -/
def Value.ofBytesBE (b : Vector Byte 8) (u : Bool) : Value :=
  { low := wordOfBytes b[4] b[5] b[6] b[7], high := wordOfBytes b[0] b[1] b[2] b[3], uns := u }

namespace Machine

/-- FROMBYTES_LE (R274). -/
def execFromBytesLE (a : Receiver) (s : State) : Result :=
  perform s (fun s => s.writeRes (.ofBytesLE (inputBytes (receiver a s)) (receiver a s).uns))

/-- FROMBYTES_BE (R275). -/
def execFromBytesBE (a : Receiver) (s : State) : Result :=
  perform s (fun s => s.writeRes (.ofBytesBE (inputBytes (receiver a s)) (receiver a s).uns))

/-- TOBYTES_LE (R276). -/
def execToBytesLE (a : Receiver) (s : State) : Result :=
  perform s (fun s => s.writeByt (lanesLE (receiver a s).pat))

/-- TOBYTES_BE (R277). -/
def execToBytesBE (a : Receiver) (s : State) : Result :=
  perform s (fun s => s.writeByt (lanesBE (receiver a s).pat))

end Machine
end Sys2Proof
end

