-- ==== Sys2Proof/Machine/Bitwise.lean ====
section
/-! DEFINITION. AND, OR, XOR, NOT, CLZ, CTZ (44_bitwise_shift_rotate.md R190 to R202). -/

namespace Sys2Proof

/-- AND word by word, the receiver's flag (R190). -/
def Value.andWords (a b : Value) : Value := { low := a.low &&& b.low, high := a.high &&& b.high, uns := a.uns }

/-- OR word by word, the receiver's flag (R191). -/
def Value.orWords (a b : Value) : Value := { low := a.low ||| b.low, high := a.high ||| b.high, uns := a.uns }

/-- XOR word by word, the receiver's flag (R192). -/
def Value.xorWords (a b : Value) : Value := { low := a.low ^^^ b.low, high := a.high ^^^ b.high, uns := a.uns }

/-- NOT word by word, the receiver's flag (R193). -/
def Value.notWords (a : Value) : Value := { low := ~~~a.low, high := ~~~a.high, uns := a.uns }

namespace Machine

/-- The zero bits of `w` from bit `k-1` down to the first set bit. -/
def zerosDown (w : Word) : Nat → Nat
  | 0 => 0
  | k + 1 => if w.getLsbD k then 0 else 1 + zerosDown w k

/-- The zero bits of `w` from bit `32-k` up to the first set bit. -/
def zerosUp (w : Word) : Nat → Nat
  | 0 => 0
  | k + 1 => if w.getLsbD (31 - k) then 0 else 1 + zerosUp w k

/-- `clz32`, with `clz32(0) = 32` (R202). -/
def clz32 (w : Word) : Nat := zerosDown w 32

/-- `ctz32`, with `ctz32(0) = 32` (R202). -/
def ctz32 (w : Word) : Nat := zerosUp w 32

/-- `clz64` (R200): on `high`; if `high` is zero, 32 plus the count on `low` (90_conflicts.md C2). -/
def clz64 (v : Value) : Nat := if v.high ≠ 0 then clz32 v.high else 32 + clz32 v.low

/-- `ctz64` (R201): on `low`; if `low` is zero, 32 plus the count on `high` (90_conflicts.md C2). -/
def ctz64 (v : Value) : Nat := if v.low ≠ 0 then ctz32 v.low else 32 + ctz32 v.high

/-- AND (R190). -/
def execAnd (a : Receiver) (b : Value) (s : State) : Result :=
  perform s (fun s => s.writeRes ((receiver a s).andWords b))

/-- OR (R191). -/
def execOr (a : Receiver) (b : Value) (s : State) : Result :=
  perform s (fun s => s.writeRes ((receiver a s).orWords b))

/-- XOR (R192). -/
def execXor (a : Receiver) (b : Value) (s : State) : Result :=
  perform s (fun s => s.writeRes ((receiver a s).xorWords b))

/-- NOT (R193). -/
def execNot (a : Receiver) (s : State) : Result :=
  perform s (fun s => s.writeRes (receiver a s).notWords)

/-- CLZ (R200). -/
def execClz (a : Receiver) (s : State) : Result :=
  perform s (fun s => s.writeAux (BitVec.ofNat 32 (clz64 (receiver a s))))

/-- CTZ (R201). -/
def execCtz (a : Receiver) (s : State) : Result :=
  perform s (fun s => s.writeAux (BitVec.ofNat 32 (ctz64 (receiver a s))))

end Machine
end Sys2Proof
end

