-- ==== Sys2Proof/Machine/Adder.lean ====
section
/-! DEFINITION. The limb datapath of the adder (41_add_neg_sub.md R122) and ADD, NEG, SUB. -/

namespace Sys2Proof

/-- The four 16-bit limbs `L0` .. `L3` of a Value (R122), as numbers. -/
def Value.limb0 (v : Value) : Nat := (v.low.extractLsb' 0 16).toNat
/-- `L1(v) = v.low[31:16]`. -/
def Value.limb1 (v : Value) : Nat := (v.low.extractLsb' 16 16).toNat
/-- `L2(v) = v.high[15:0]`. -/
def Value.limb2 (v : Value) : Nat := (v.high.extractLsb' 0 16).toNat
/-- `L3(v) = v.high[31:16]`. -/
def Value.limb3 (v : Value) : Nat := (v.high.extractLsb' 16 16).toNat

/-- `low = {C1, C0}`, `high = {C3, C2}` (R122, R146). -/
def Value.ofLimbs (c0 c1 c2 c3 : Nat) (u : Bool) : Value :=
  { low := BitVec.ofNat 32 (c1 * 2 ^ 16 + c0), high := BitVec.ofNat 32 (c3 * 2 ^ 16 + c2), uns := u }

/-- The limb adder (R122): `Ck = t[15:0]`, `carry = t[16]`; the carry after `k = 3` is dropped. -/
def Value.addLimbs (a b : Value) : Value :=
  let t0 := a.limb0 + b.limb0
  let t1 := a.limb1 + b.limb1 + t0 / 2 ^ 16
  let t2 := a.limb2 + b.limb2 + t1 / 2 ^ 16
  let t3 := a.limb3 + b.limb3 + t2 / 2 ^ 16
  .ofLimbs (t0 % 2 ^ 16) (t1 % 2 ^ 16) (t2 % 2 ^ 16) (t3 % 2 ^ 16) a.uns

/-- `negate(x) = not(x) + 1` (R125); `MIN_VALUE` needs no path of its own (R126). -/
def Value.negate (a : Value) : Value := a.notWords.addLimbs .one

/-- `a + (-b)` (R130). -/
def Value.subLimbs (a b : Value) : Value := a.addLimbs b.negate

namespace Machine

/-- ADD (R120). -/
def execAdd (a : Receiver) (b : Value) (s : State) : Result :=
  perform s (fun s => s.writeRes ((receiver a s).addLimbs b))

/-- NEG (R125). -/
def execNeg (a : Receiver) (s : State) : Result :=
  perform s (fun s => s.writeRes (receiver a s).negate)

/-- SUB (R130). -/
def execSub (a : Receiver) (b : Value) (s : State) : Result :=
  perform s (fun s => s.writeRes ((receiver a s).subLimbs b))

end Machine
end Sys2Proof
end

