-- ==== Sys2Proof/Machine/Comparison.lean ====
section
/-! DEFINITION. The comparison tree: EQ, CMP (45_comparison.md R231, R235). -/

namespace Sys2Proof

/-- `eq(A, B)` (R231): mismatched flags with both top bits set are unequal; otherwise the raw words are compared. -/
def Value.equal (a b : Value) : Bool :=
  if a.uns != b.uns && a.topBit && b.topBit then false
  else a.low == b.low && a.high == b.high

/-- The unsigned word comparison of case (5) of R235: `high` first, then `low`. -/
def Value.wordsBelow (a b : Value) : Bool :=
  decide (a.high.toNat < b.high.toNat) || (a.high == b.high && decide (a.low.toNat < b.low.toNat))

/-- The sign of `sub(A, B)`: cases (4) and (6) of R235. -/
def Value.diffSign (a b : Value) : Int := if (a.subLimbs b).topBit then -1 else 1

/-- `cmp(A, B)` (R235), the first of its six cases that applies. -/
def Value.compare (a b : Value) : Int :=
  if a.equal b then 0
  else if a.isNeg && !b.isNeg then -1
  else if b.isNeg && !a.isNeg then 1
  else if a.isNeg && b.isNeg then a.diffSign b
  else if a.uns || b.uns then (if a.wordsBelow b then -1 else 1)
  else a.diffSign b

namespace Machine

/-- EQ (R231): 1 for equal, 0 otherwise. -/
def execEq (a : Receiver) (b : Value) (s : State) : Result :=
  perform s (fun s => s.writeAux (if (receiver a s).equal b then 1 else 0))

/-- CMP (R235): -1, 0, 1 sign-extended to 32 bits. -/
def execCmp (a : Receiver) (b : Value) (s : State) : Result :=
  perform s (fun s => s.writeAux (BitVec.ofInt 32 ((receiver a s).compare b)))

end Machine
end Sys2Proof
end

