-- ==== Sys2Proof/Machine/Multiplier.lean ====
section
/-! DEFINITION. The limb datapath of the multiplier (42_multiply.md R146) and MUL. -/

namespace Sys2Proof

/-- The limb multiplier (R146): the ten partial products of weight below 2^64, summed by columns; each column keeps 16
bits and passes the rest on, and what column 3 would pass on is dropped. -/
def Value.mulLimbs (a b : Value) : Value :=
  let k0 := a.limb0 * b.limb0
  let k1 := k0 / 2 ^ 16 + a.limb0 * b.limb1 + a.limb1 * b.limb0
  let k2 := k1 / 2 ^ 16 + a.limb0 * b.limb2 + a.limb1 * b.limb1 + a.limb2 * b.limb0
  let k3 := k2 / 2 ^ 16 + a.limb0 * b.limb3 + a.limb1 * b.limb2 + a.limb2 * b.limb1 + a.limb3 * b.limb0
  .ofLimbs (k0 % 2 ^ 16) (k1 % 2 ^ 16) (k2 % 2 ^ 16) (k3 % 2 ^ 16) a.uns

namespace Machine

/-- MUL (R140). -/
def execMul (a : Receiver) (b : Value) (s : State) : Result :=
  perform s (fun s => s.writeRes ((receiver a s).mulLimbs b))

end Machine
end Sys2Proof
end

