-- ==== Sys2Proof/Machine/Divider.lean ====
section
/-! DEFINITION. The restoring divider (43_divide_modulo.md R171) and DIV, MOD. -/

namespace Sys2Proof

namespace Machine

/-- One iteration of the divider at quotient bit `i` (R171): `r = 2*r + n[i]; if r >= d then r = r - d, q[i] = 1`. -/
def udivStep (n d i : Nat) (qr : Nat × Nat) : Nat × Nat :=
  let r := 2 * qr.2 + (n.testBit i).toNat
  if d ≤ r then (qr.1 + 2 ^ i, r - d) else (qr.1, r)

/-- The iterations for quotient bits `k-1` down to 0. -/
def udivLoop (n d : Nat) : Nat → Nat × Nat → Nat × Nat
  | 0, qr => qr
  | k + 1, qr => udivLoop n d k (udivStep n d k qr)

/-- `udiv64(n, d) = (q, r)`: restoring long division, 64 iterations (R171). -/
def udiv64 (n d : Nat) : Nat × Nat := udivLoop n d 64 (0, 0)

end Machine

/-- The quotient for a divisor that is not zero (R160, R171). The receiver's flag selects the division and the divisor's
pattern is re-read under it (R172). -/
def Value.quotient (a b : Value) : Value :=
  if a.uns then
    .ofPat (BitVec.ofNat 64 (Machine.udiv64 a.pat.toNat b.pat.toNat).1) true
  else
    let q := (Machine.udiv64 (a.magnitude a.topBit) (b.magnitude b.topBit)).1
    .ofPat (BitVec.ofNat 64 (if a.topBit != b.topBit then (2 ^ 64 - q) % 2 ^ 64 else q)) false

/-- The remainder for a divisor that is not zero: `a - (a/b)*b` by the rules of DIV, MUL and SUB (R180). -/
def Value.modulo (a b : Value) : Value := a.subLimbs ((a.quotient b).mulLimbs b)

namespace Machine

/-- DIV (R160): the divisor is tested before anything else (R163). -/
def execDiv (a : Receiver) (b : Value) (s : State) : Result :=
  perform s (fun s => if b.isZero then s.raise .divisionByZero else s.writeRes ((receiver a s).quotient b))

/-- MOD (R180): the divisor is tested before anything else (R323). -/
def execMod (a : Receiver) (b : Value) (s : State) : Result :=
  perform s (fun s => if b.isZero then s.raise .divisionByZero else s.writeRes ((receiver a s).modulo b))

end Machine
end Sys2Proof
end

