-- ==== Sys2Proof/Machine/Representation.lean ====
section
/-! DEFINITION. FROMBITS, FROMINT, TOINT, TOUNSIGNED, TOSIGNED (40_representation.md R100 to R110). -/

namespace Sys2Proof

/-- FROMINT's result (R103): `low` extended by its own sign for a signed Value, by zero for an unsigned one. -/
def Value.extendLow (low : Word) (u : Bool) : Value :=
  { low := low
    high := if u then 0x00000000 else if low.getLsbD 31 then 0xFFFFFFFF else 0x00000000
    uns := u }

/-- The same pattern read under the flag `u` (R109, R110). -/
def Value.withFlag (v : Value) (u : Bool) : Value := { v with uns := u }

namespace Machine

/-- FROMBITS (R100). -/
def execFromBits (a : Receiver) (s : State) : Result :=
  perform s (fun s => s.writeRes (receiver a s))

/-- FROMINT (R103). -/
def execFromInt (a : Receiver) (s : State) : Result :=
  perform s (fun s => s.writeRes (.extendLow (receiver a s).low (receiver a s).uns))

/-- TOINT (R106). -/
def execToInt (a : Receiver) (s : State) : Result :=
  perform s (fun s => s.writeAux (receiver a s).low)

/-- TOUNSIGNED (R109). -/
def execToUnsigned (a : Receiver) (s : State) : Result :=
  perform s (fun s => s.writeRes ((receiver a s).withFlag true))

/-- TOSIGNED (R110). -/
def execToSigned (a : Receiver) (s : State) : Result :=
  perform s (fun s => s.writeRes ((receiver a s).withFlag false))

end Machine
end Sys2Proof
end

