-- ==== Sys2Proof/Machine/Shift.lean ====
section
/-! DEFINITION. SHL, SHR, SHRU, ROTL, ROTR by their word-level formulas (44_bitwise_shift_rotate.md R205 to R221). In
each, `n` is a count in 0..63. -/

namespace Sys2Proof

/-- SHL on words (R206, R210). -/
def Value.shiftLeft (v : Value) (n : Nat) : Value :=
  if n = 0 then v
  else if n < 32 then
    { low := v.low <<< n, high := (v.high <<< n) ||| (v.low >>> (32 - n)), uns := v.uns }
  else { low := 0, high := v.low <<< (n - 32), uns := v.uns }

/-- SHRU on words (R206, R211). -/
def Value.shiftRightZero (v : Value) (n : Nat) : Value :=
  if n = 0 then v
  else if n < 32 then
    { low := (v.low >>> n) ||| (v.high <<< (32 - n)), high := v.high >>> n, uns := v.uns }
  else { low := v.high >>> (n - 32), high := 0, uns := v.uns }

/-- A 32-bit right shift filling with `f`, which is either `w[31]` or 0: `>>s` or `>>>` (R206, R212). -/
def fillShift (w : Word) (k : Nat) (f : Bool) : Word := if f then w.sshiftRight k else w >>> k

/-- SHR on words with fill bit `f` (R206, R212). -/
def Value.shiftRightFill (v : Value) (n : Nat) (f : Bool) : Value :=
  if n = 0 then v
  else if n < 32 then
    { low := (v.low >>> n) ||| (v.high <<< (32 - n)), high := fillShift v.high n f, uns := v.uns }
  else
    { low := fillShift v.high (n - 32) f, high := if f then 0xFFFFFFFF else 0x00000000, uns := v.uns }

/-- SHR's fill bit (R212): `A.high[31]` for a signed receiver always, and for an unsigned one when
`ASR_UNSIGNED_FILL` is `sign`; 0 for an unsigned one when it is `zero`. -/
def Value.fillBit (v : Value) (c : Config) : Bool :=
  match v.uns, c.asrUnsignedFill with
  | false, _ => v.topBit
  | true, .sign => v.topBit
  | true, .zero => false

/-- ROTL (R220): `SHL(A, n) | SHRU(A, 64 - n)`, with `n = 0` separate. -/
def Value.rotateLeft (v : Value) (n : Nat) : Value :=
  if n = 0 then v else (v.shiftLeft n).orWords (v.shiftRightZero (64 - n))

/-- ROTR (R221): `SHRU(A, n) | SHL(A, 64 - n)`, with `n = 0` separate. -/
def Value.rotateRight (v : Value) (n : Nat) : Value :=
  if n = 0 then v else (v.shiftRightZero n).orWords (v.shiftLeft (64 - n))

namespace Machine

/-- SHL (R210). -/
def execShl (a : Receiver) (count : Nat) (s : State) : Result :=
  perform s (fun s => s.writeRes ((receiver a s).shiftLeft (shiftCount count)))

/-- SHR (R212). -/
def execShr (a : Receiver) (count : Nat) (s : State) : Result :=
  perform s (fun s =>
    s.writeRes ((receiver a s).shiftRightFill (shiftCount count) ((receiver a s).fillBit s.cfg)))

/-- SHRU (R211). -/
def execShru (a : Receiver) (count : Nat) (s : State) : Result :=
  perform s (fun s => s.writeRes ((receiver a s).shiftRightZero (shiftCount count)))

/-- ROTL (R220). -/
def execRotl (a : Receiver) (count : Nat) (s : State) : Result :=
  perform s (fun s => s.writeRes ((receiver a s).rotateLeft (shiftCount count)))

/-- ROTR (R221). -/
def execRotr (a : Receiver) (count : Nat) (s : State) : Result :=
  perform s (fun s => s.writeRes ((receiver a s).rotateRight (shiftCount count)))

end Machine
end Sys2Proof
end

