-- ==== Sys2Proof/Machine/Strings.lean ====
section
/-! DEFINITION. The base-N digit-extraction pipeline: TOSTR (46_string_conversion.md R250, R251, R256). -/

namespace Sys2Proof.Machine

/-- The pipeline's loop (R256): divide by the radix until the quotient is zero, the last remainder first in the list, so
that the most significant digit ends up in front. `fuel` bounds the number of digits; 64 is enough for every magnitude
below 2^64 and every radix from 2 (R251). -/
def digitLoop (r : Nat) : Nat → Nat → List Nat → List Nat
  | 0, _, acc => acc
  | fuel + 1, m, acc =>
    match udiv64 m r with
    | (q, d) => if q = 0 then d :: acc else digitLoop r fuel q (d :: acc)

/-- The base-`r` digits of `m`, most significant first, one digit 0 for zero (R250, R251). -/
def digitsOf (m r : Nat) : List Nat := digitLoop r 64 m []

/-- A list cut or filled up with `z` to length `n`. -/
def padTo (z : Digit) : Nat → List Digit → List Digit
  | 0, _ => []
  | n + 1, [] => z :: padTo z n []
  | n + 1, d :: ds => d :: padTo z n ds

/-- The length of a padded list, which makes it a vector. -/
theorem padTo_length (z : Digit) (n : Nat) (ds : List Digit) : (padTo z n ds).length = n := by
  induction n generalizing ds with
  | zero => rfl
  | succ n ih => cases ds <;> simp [padTo, ih]

/-- `DIG` from a sign and digits: `LEN` digits first, every later place 0 (R34, R250). -/
def DigitString.ofDigits (neg : Bool) (ds : List Nat) : DigitString :=
  { neg := neg
    len := BitVec.ofNat 7 ds.length
    digits := ⟨⟨padTo 0 64 (ds.map (BitVec.ofNat 6))⟩, padTo_length 0 64 _⟩ }

/-- `digits(a, r)` (R251): the sign and the digits of the magnitude. -/
def toDigits (a : Value) (r : Nat) : DigitString := .ofDigits a.isNeg (digitsOf (a.magnitude a.isNeg) r)

/-- TOSTR (R250): the radix is tested before the value is looked at (R252). -/
def execToStr (a : Receiver) (radix : Nat) (s : State) : Result :=
  perform s (fun s =>
    if radixLegal radix then s.writeDig (toDigits (receiver a s) radix) else s.raise .invalidRadix)

end Sys2Proof.Machine
end

