-- ==== Sys2Proof/Machine/System.lean ====
section
/-! DEFINITION. CLRERR (48_system.md R280). -/

namespace Sys2Proof.Machine

/-- CLRERR (R280): the only command that is performed while an error is held. -/
def execClrErr (s : State) : Result := .next s.clearErr

end Sys2Proof.Machine
end

