-- ==== Sys2Proof/Machine/Dispatch.lean ====
section
/-! DEFINITION. One arm per command (30_encoding.md R75). -/

namespace Sys2Proof.Machine

def exec (i : Instr) (s : State) : Host.Outcome State Fault Refusal :=
  match i with
  | .fromBits a => Sys2Proof.Machine.execFromBits a s
  | .fromInt a => Sys2Proof.Machine.execFromInt a s
  | .toInt a => Sys2Proof.Machine.execToInt a s
  | .toUnsigned a => Sys2Proof.Machine.execToUnsigned a s
  | .toSigned a => Sys2Proof.Machine.execToSigned a s
  | .fromBytesLE a => Sys2Proof.Machine.execFromBytesLE a s
  | .fromBytesBE a => Sys2Proof.Machine.execFromBytesBE a s
  | .toBytesLE a => Sys2Proof.Machine.execToBytesLE a s
  | .toBytesBE a => Sys2Proof.Machine.execToBytesBE a s
  | .add a b => Sys2Proof.Machine.execAdd a b s
  | .neg a => Sys2Proof.Machine.execNeg a s
  | .sub a b => Sys2Proof.Machine.execSub a b s
  | .mul a b => Sys2Proof.Machine.execMul a b s
  | .div a b => Sys2Proof.Machine.execDiv a b s
  | .mod a b => Sys2Proof.Machine.execMod a b s
  | .and a b => Sys2Proof.Machine.execAnd a b s
  | .or a b => Sys2Proof.Machine.execOr a b s
  | .xor a b => Sys2Proof.Machine.execXor a b s
  | .not a => Sys2Proof.Machine.execNot a s
  | .clz a => Sys2Proof.Machine.execClz a s
  | .ctz a => Sys2Proof.Machine.execCtz a s
  | .shl a count => Sys2Proof.Machine.execShl a count s
  | .shr a count => Sys2Proof.Machine.execShr a count s
  | .shru a count => Sys2Proof.Machine.execShru a count s
  | .rotl a count => Sys2Proof.Machine.execRotl a count s
  | .rotr a count => Sys2Proof.Machine.execRotr a count s
  | .eq a b => Sys2Proof.Machine.execEq a b s
  | .cmp a b => Sys2Proof.Machine.execCmp a b s
  | .toStr a radix => Sys2Proof.Machine.execToStr a radix s
  | .clrErr => Sys2Proof.Machine.execClrErr s

end Sys2Proof.Machine
end

