-- ==== Sys2Proof/Machine/Step.lean ====
section
/-! DEFINITION. One step: the host's next delivery, performed whole (00_scope.md R5; 60_exceptions.md R320). -/

namespace Sys2Proof.Machine

/-- Performing one packet (R320): the latch stands before legality in both cases, and legality before execution. -/
def performPacket (p : Packet) (s : State) : Host.Outcome State Fault Refusal :=
  match decode p with
  | .ok i => exec i s
  | .error _ => performIllegal s

/-- One step. With nothing delivered the state stays as it is: only packets and reset change it (R350; log entry 2). -/
def step (s : State) : Host.Outcome State Fault Refusal :=
  match s.takeEvent with
  | none => .next s
  | some (.reset, t) => .next t.applyReset
  | some (.command p, t) => performPacket p t

/-- The host delivers the packet with the bits `w` ahead of everything else, so that the next step performs it
(log entries 1 and 7). -/
def State.withFetchWord (s : State) (nbits w : Nat) : State := s.deliver (.command (packetOfBits nbits w))

end Sys2Proof.Machine
end

