-- ==== Sys2Proof/Machine/HostSide.lean ====
section
/-! DEFINITION. Host-side operations (49_host_side_and_accelerator.md; 46 R258). None is a command and no meaning
calls any of them (R285); they are kept as pure functions of what the host holds. Log entries 9 and 10. -/

namespace Sys2Proof.Machine

/-- The character of a digit value (R258): `0`..`9`, then letters in the case of `DIGIT_CASE`. -/
def digitChar (c : DigitCase) (d : Nat) : Char :=
  if d < 10 then Char.ofNat (48 + d)
  else match c with
    | .lower => Char.ofNat (97 + (d - 10))
    | .upper => Char.ofNat (65 + (d - 10))

/-- `DIG` as text (R258): a `-` when `NEG`, then the characters of `D[0]` .. `D[LEN-1]`. -/
def render (c : DigitCase) (d : DigitString) : List Char :=
  (if d.neg then ['-'] else []) ++ (d.digits.toList.take d.len.toNat).map (fun x => digitChar c x.toNat)

/-- How a host-side operation ends without a Value. -/
inductive HostFailure where
  /-- An error kind of R322. -/
  | kind (k : ErrKind)
  /-- Input for which the spec states no result: a character that is no digit of the radix (R295, I28), a real number
  with a fraction (I25), a missing flag or an unsupported shape in `fromValue` (R298, I29). -/
  | outsideDomain
deriving DecidableEq, Repr

/-- The value of a digit character, letters in either case (R290). -/
def digitValue (c : Char) : Option Nat :=
  let n := c.toNat
  if 48 ≤ n ∧ n ≤ 57 then some (n - 48)
  else if 97 ≤ n ∧ n ≤ 122 then some (n - 87)
  else if 65 ≤ n ∧ n ≤ 90 then some (n - 55)
  else none

/-- The digit values of a text, none when a character is no digit of the radix (R295). -/
def digitValues (r : Nat) : List Char → Option (List Nat)
  | [] => some []
  | c :: cs =>
    match digitValue c, digitValues r cs with
    | some d, some ds => if d < r then some (d :: ds) else none
    | _, _ => none

/-- The base-`r` number of a digit sequence (R294). -/
def digitsNumber (r : Nat) (ds : List Nat) : Nat := ds.foldl (fun acc d => acc * r + d) 0

/-- R294: `result = result * radix^chunkLen + chunkValue` over chunks of up to 8 digits from the left, with the block's
wrapping `mul` and `add`. -/
def parseChunks (r : Nat) : Nat → List Nat → Value → Value
  | 0, _, v => v
  | fuel + 1, ds, v =>
    match ds with
    | [] => v
    | d :: rest =>
      let chunk := (d :: rest).take 8
      parseChunks r fuel ((d :: rest).drop 8)
        ((v.mulLimbs (.val (r ^ chunk.length : Nat) false)).addLimbs (.val (digitsNumber r chunk : Nat) false))

/-- The four literal tokens that map to zero (R291). -/
def zeroTokens : List (List Char) :=
  [['N', 'a', 'N'], ['I', 'n', 'f', 'i', 'n', 'i', 't', 'y'], ['+', 'I', 'n', 'f', 'i', 'n', 'i', 't', 'y'],
   ['-', 'I', 'n', 'f', 'i', 'n', 'i', 't', 'y']]

/-- The digit values of a text that carries no sign, none for a token that maps to zero (R291, R293, R295). -/
def scanUnsigned (r : Nat) (t : List Char) : Except HostFailure (List Nat) :=
  if t = [] then .error (.kind .emptyInput)
  else if t ∈ zeroTokens then .ok []
  else match digitValues r t with
    | some ds => .ok ds
    | none => .error .outsideDomain

/-- The host's own tests on a text (R291, R293): its failure, or whether it begins with `-` and its digit values. The
tests stand in the order empty, radix, interior hyphen. Whether the tokens are accepted before them is open (R291, I27), so
it is a parameter (log entry 10). -/
def scanText (tokensFirst : Bool) (t : List Char) (radix : Int) : Except HostFailure (Bool × List Nat) :=
  if tokensFirst && decide (t ∈ zeroTokens) then .ok (false, [])
  else if t = [] then .error (.kind .emptyInput)
  else if !radixLegal radix.toNat then .error (.kind .invalidRadix)
  else if '-' ∈ t.drop 1 then .error (.kind .malformedInput)
  else if t ∈ zeroTokens then .ok (false, [])
  else match t with
    | '-' :: rest => (scanUnsigned radix.toNat rest).map (fun ds => (true, ds))
    | t => (scanUnsigned radix.toNat t).map (fun ds => (false, ds))

/-- The Value of a sign and digits (R294): a leading `-` negates. -/
def parseDigits (negative u : Bool) (r : Nat) (ds : List Nat) : Value :=
  let v := parseChunks r ds.length ds (.val 0 u)
  if negative then v.negate else v

/-- `fromString(text, unsigned, radix)` (R290 to R294): the host's tests, then the parsing. -/
def fromString (tokensFirst : Bool) (t : List Char) (u : Bool) (radix : Int) : Except HostFailure Value :=
  (scanText tokensFirst t radix).map (fun (negative, ds) => parseDigits negative u radix.toNat ds)

/-- A number of the host's real type, as far as `fromNumber` is stated for it (R286, I25, I26). -/
inductive HostReal where
  | nan
  | negInfinity
  | posInfinity
  | integer (n : Int)
  /-- A number that is no integer, strictly between `floor` and `floor + 1`. The source does not settle how one in range
  is rounded (N17, C7). -/
  | fraction (floor : Int)
deriving DecidableEq, Repr

/-- Case (5) of R286: the two words of a number that is not negative, each truncated to 32 bits. -/
def splitWords (n : Int) (u : Bool) : Value :=
  { low := BitVec.ofInt 32 (n % 2 ^ 32), high := BitVec.ofInt 32 (n / 2 ^ 32), uns := u }

/-- `fromNumber(x, unsigned)` (R286), its cases in order. A fraction out of range is clamped like any other number; one
in range is outside the domain (I25, log entry 10). -/
def fromNumber (x : HostReal) (u : Bool) : Except HostFailure Value :=
  match x, u with
  | .nan, u => .ok (.val 0 u)
  | .negInfinity, true => .ok .uzero
  | .posInfinity, true => .ok .maxUnsigned
  | .integer n, true =>
    if n < 0 then .ok .uzero
    else if 2 ^ 64 ≤ n then .ok .maxUnsigned
    else .ok (splitWords n true)
  | .fraction f, true =>
    if f < 0 then .ok .uzero
    else if 2 ^ 64 ≤ f then .ok .maxUnsigned
    else .error .outsideDomain
  | .negInfinity, false => .ok .minValue
  | .posInfinity, false => .ok .maxValue
  | .integer n, false =>
    if n ≤ -(2 ^ 63) then .ok .minValue
    else if 2 ^ 63 ≤ n then .ok .maxValue
    else if n < 0 then .ok (splitWords (-n) false).negate
    else .ok (splitWords n false)
  | .fraction f, false =>
    if f < -(2 ^ 63) then .ok .minValue
    else if 2 ^ 63 ≤ f then .ok .maxValue
    else .error .outsideDomain

/-- `toNumber()` (R288): exact up to 2^53 in magnitude; what the host's real-number type makes of a larger one is free. -/
def toNumber (v : Value) : Int := if v.num.natAbs ≤ 2 ^ 53 then v.num else Config.hostRounding v.num

/-- The input shapes of `fromValue` (R298). -/
inductive HostInput where
  | number (x : HostReal)
  | text (t : List Char)
  | record (low high : Int) (uns : Bool)
  | other
deriving DecidableEq, Repr

/-- `fromValue(v, unsignedOverride?)` (R298). -/
def fromValue (tokensFirst : Bool) (v : HostInput) (override : Option Bool) : Except HostFailure Value :=
  match v, override with
  | .number x, some u => fromNumber x u
  | .text t, some u => fromString tokensFirst t u 10
  | .record low high uns, o => .ok { low := BitVec.ofInt 32 low, high := BitVec.ofInt 32 high, uns := o.getD uns }
  | .number _, none => .error .outsideDomain
  | .text _, none => .error .outsideDomain
  | .other, _ => .error .outsideDomain

/-- The other operand of a binary operator before coercion: a Value, or something convertible to one (R299). -/
inductive HostOperand where
  | value (v : Value)
  | input (v : HostInput)
deriving DecidableEq, Repr

/-- Operand coercion (R299): what the host puts into the B fields. A Value stays as it is; anything else is converted by
R298, whose `unsignedOverride` the host gives or leaves out. -/
def coerceOperand (tokensFirst : Bool) (o : HostOperand) (override : Option Bool) : Except HostFailure Value :=
  match o with
  | .value v => .ok v
  | .input v => fromValue tokensFirst v override

/-- A binary operator of the polymorphic surface (R299): the host converts the other operand and then issues the command
`op`, which takes a Value. -/
def coerceCommand (op : Receiver → Value → Instr) (a : Receiver) (tokensFirst : Bool) (o : HostOperand)
    (override : Option Bool) : Except HostFailure Instr :=
  (coerceOperand tokensFirst o override).map (op a)

/-- `fromNumber` by the block's commands (R287): the host computes the words by R286 in its own arithmetic and issues
FROMBITS. For a number of case (4), negative and in range under the signed flag, it issues FROMBITS of the words of the
negated number and then NEG. -/
def fromNumberCommands (x : HostReal) (u : Bool) : Except HostFailure (List Instr) :=
  match x, u with
  | .integer n, false =>
    if -(2 ^ 63) < n ∧ n < 0 then .ok [.fromBits (.lit (splitWords (-n) false)), .neg .res]
    else (fromNumber x u).map (fun v => [.fromBits (.lit v)])
  | _, _ => (fromNumber x u).map (fun v => [.fromBits (.lit v)])

/-- MUL and ADD for each chunk of up to 8 digits, from the left (R296). -/
def chunkCommands (r : Nat) : Nat → List Nat → List Instr
  | 0, _ => []
  | fuel + 1, ds =>
    match ds with
    | [] => []
    | d :: rest =>
      let chunk := (d :: rest).take 8
      .mul .res (.val (r ^ chunk.length : Nat) false) :: .add .res (.val (digitsNumber r chunk : Nat) false) ::
        chunkCommands r fuel ((d :: rest).drop 8)

/-- The commands that build the Value of a sign and digits (R296): FROMBITS of zero with the flag, MUL and ADD for each
chunk, and NEG when the text began with `-`. -/
def digitsCommands (negative u : Bool) (r : Nat) (ds : List Nat) : List Instr :=
  .fromBits (.lit (.val 0 u)) :: chunkCommands r ds.length ds ++ (if negative then [.neg .res] else [])

/-- `fromString` by the block's commands (R296): the host makes its own tests on the text, and issues the commands where
they pass. -/
def fromStringCommands (tokensFirst : Bool) (t : List Char) (u : Bool) (radix : Int) : Except HostFailure (List Instr) :=
  (scanText tokensFirst t radix).map (fun (negative, ds) => digitsCommands negative u radix.toNat ds)

/-- The orderings a host derives from the word one CMP leaves in `AUX` (R238). -/
def auxLess (aux : Word) : Bool := aux == 0xFFFFFFFF
/-- Less or equal (R238). -/
def auxLessEqual (aux : Word) : Bool := aux != 0x00000001
/-- Greater (R238). -/
def auxGreater (aux : Word) : Bool := aux == 0x00000001
/-- Greater or equal (R238). -/
def auxGreaterEqual (aux : Word) : Bool := aux != 0xFFFFFFFF

/-- The five operation tags of the optional accelerator (R310, C5). -/
inductive AccelTag where
  | multiply
  | signedDivide
  | unsignedDivide
  | signedRemainder
  | unsignedRemainder
deriving DecidableEq, Repr

/-- The accelerator's low and high result words (R310), by the laws of R311 on the two patterns and not by the block's
datapaths: the product modulo 2^64, the truncated or floor quotient, and `a - (a/b)*b` in the same reading. None for
operands the core never gives it: a zero divisor, and `MIN_VALUE / -1` for signed divide (R310, I30). LONG64 has no such
port (R311). Log entry 15. -/
def accelerate (t : AccelTag) (aLow aHigh bLow bHigh : Word) : Option (Word × Word) :=
  let words (n : Int) : Option (Word × Word) := some (BitVec.ofInt 32 n, BitVec.ofInt 32 (n / 2 ^ 32))
  let a (u : Bool) : Int := Value.num { low := aLow, high := aHigh, uns := u }
  let b (u : Bool) : Int := Value.num { low := bLow, high := bHigh, uns := u }
  match t with
  | .multiply => words (a true * b true)
  | .signedDivide =>
    if b false = 0 ∨ (a false = -(2 ^ 63) ∧ b false = -1) then none else words ((a false).tdiv (b false))
  | .unsignedDivide => if b true = 0 then none else words (a true / b true)
  | .signedRemainder => if b false = 0 then none else words (a false - (a false).tdiv (b false) * b false)
  | .unsignedRemainder => if b true = 0 then none else words (a true - a true / b true * b true)

/-- The command by which a host uses LONG64 as its accelerator (R312). DESIGN CHOICE (log entry 17): the rule gives `A_UNS`
for the divide and remainder tags only, and MUL for tag multiply carries `A_UNS = 0`; `B_UNS`, which all three ignore, is 0
(R90). -/
def accelCommand (t : AccelTag) (aLow aHigh bLow bHigh : Word) : Instr :=
  let a (u : Bool) : Receiver := .lit { low := aLow, high := aHigh, uns := u }
  let b : Value := { low := bLow, high := bHigh, uns := false }
  match t with
  | .multiply => .mul (a false) b
  | .signedDivide => .div (a false) b
  | .unsignedDivide => .div (a true) b
  | .signedRemainder => .mod (a false) b
  | .unsignedRemainder => .mod (a true) b

end Sys2Proof.Machine
end

