-- ==== Sys2Proof/Safety.lean ====
section
/-! DEFINITION. What a good state is, and the tables of 10_state.md R30 and 30_encoding.md R75 that claims speak of. -/

namespace Sys2Proof.Machine

/-- `DIG` as R34 describes it: at most 64 digits, each below 36, none beyond `LEN`, no leading zero in a string of more
than one digit (R250), and no sign on the empty string of reset (R45). -/
def DigitString.wf (d : DigitString) : Prop :=
  d.len.toNat ≤ 64 ∧
  (∀ i : Fin 64, d.digits[i].toNat < 36) ∧
  (∀ i : Fin 64, d.len.toNat ≤ i.val → d.digits[i] = 0) ∧
  (1 < d.len.toNat → d.digits[0] ≠ 0) ∧
  (d.len.toNat = 0 → d.neg = false)

/-- The invariant: `DIG` is well formed, and `ERR` holds no kind that belongs to the host-side parser (R35, R285). -/
def State.Inv (s : State) : Prop :=
  s.dig.wf ∧ s.err ≠ .emptyInput ∧ s.err ≠ .malformedInput

/-- The five registers agree: the states look the same to a host that reads (R30, R57). -/
def State.sameRegisters (s t : State) : Prop :=
  s.res = t.res ∧ s.aux = t.aux ∧ s.byt = t.byt ∧ s.dig = t.dig ∧ s.err = t.err

/-- A host can tell the two states apart by reading `r` (R30). -/
def differ (r : RegName) (s t : State) : Prop :=
  match r with
  | .res => s.res ≠ t.res
  | .aux => s.aux ≠ t.aux
  | .byt => s.byt ≠ t.byt
  | .dig => s.dig ≠ t.dig
  | .err => s.err ≠ t.err

/-- The register a command writes when it completes (the tables of R30 and R75). -/
def destination : Instr → RegName
  | .fromBits _ => .res
  | .fromInt _ => .res
  | .toInt _ => .aux
  | .toUnsigned _ => .res
  | .toSigned _ => .res
  | .fromBytesLE _ => .res
  | .fromBytesBE _ => .res
  | .toBytesLE _ => .byt
  | .toBytesBE _ => .byt
  | .add _ _ => .res
  | .neg _ => .res
  | .sub _ _ => .res
  | .mul _ _ => .res
  | .div _ _ => .res
  | .mod _ _ => .res
  | .and _ _ => .res
  | .or _ _ => .res
  | .xor _ _ => .res
  | .not _ => .res
  | .clz _ => .aux
  | .ctz _ => .aux
  | .shl _ _ => .res
  | .shr _ _ => .res
  | .shru _ _ => .res
  | .rotl _ _ => .res
  | .rotr _ _ => .res
  | .eq _ _ => .aux
  | .cmp _ _ => .aux
  | .toStr _ _ => .dig
  | .clrErr => .err

/-- The commands of a list performed one after another, as a host issues a sequence (R55). -/
def execAll : List Instr → State → Result
  | [], s => .next s
  | i :: is, s =>
    match exec i s with
    | .next t => execAll is t
    | .fault f => .fault f
    | .refused r => .refused r

/-- The thirty assigned tags (R75). -/
def assignedTags : List (BitVec 6) :=
  [0x00, 0x01, 0x02, 0x03, 0x04, 0x08, 0x09, 0x0A, 0x0B, 0x10, 0x11, 0x12, 0x13, 0x14, 0x15,
   0x20, 0x21, 0x22, 0x23, 0x24, 0x25, 0x28, 0x29, 0x2A, 0x2B, 0x2C, 0x30, 0x31, 0x38, 0x3F]

/-- The thirty-four unassigned tags (R77, R325). -/
def unassignedTags : List (BitVec 6) :=
  [0x05, 0x06, 0x07, 0x0C, 0x0D, 0x0E, 0x0F,
   0x16, 0x17, 0x18, 0x19, 0x1A, 0x1B, 0x1C, 0x1D, 0x1E, 0x1F,
   0x26, 0x27, 0x2D, 0x2E, 0x2F, 0x32, 0x33, 0x34, 0x35, 0x36, 0x37, 0x39, 0x3A, 0x3B, 0x3C, 0x3D, 0x3E]

/-- Two packets agree, in state `s`, on every field that the last column of R75 lists for the command `op`. The receivers
are compared after operand selection (R74). -/
def readsAgree (op : BitVec 6) (p q : Packet) (s : State) : Prop :=
  let a := receiver p.receiver s
  let a' := receiver q.receiver s
  (op ∈ [0x00#6, 0x08, 0x09, 0x10, 0x11, 0x12, 0x13, 0x14, 0x15, 0x20, 0x21, 0x22, 0x23,
    0x28, 0x29, 0x2A, 0x2B, 0x2C, 0x30, 0x31, 0x38] → a = a') ∧
  (op = 0x01 → a.low = a'.low ∧ a.uns = a'.uns) ∧
  (op = 0x02 → a.low = a'.low) ∧
  (op ∈ [0x03#6, 0x04, 0x0A, 0x0B, 0x24, 0x25] → a.low = a'.low ∧ a.high = a'.high) ∧
  (op ∈ [0x10#6, 0x12, 0x13, 0x14, 0x15, 0x20, 0x21, 0x22] → p.w3 = q.w3 ∧ p.w4 = q.w4) ∧
  (op ∈ [0x28#6, 0x29, 0x2A, 0x2B, 0x2C] → p.w3.extractLsb' 0 6 = q.w3.extractLsb' 0 6) ∧
  (op ∈ [0x30#6, 0x31] → p.other = q.other) ∧
  (op = 0x38 → p.w3 = q.w3)

/-- The packet that carries `v` in its A fields with CHAIN = 0, and is otherwise `p` (R74). -/
def withLiteral (p : Packet) (v : Value) : Packet :=
  { p with
    w0 := p.rsv ++ BitVec.ofBool false ++ BitVec.ofBool p.bUns ++ BitVec.ofBool v.uns ++ p.op
    w1 := v.low
    w2 := v.high }

end Sys2Proof.Machine
end

