-- ==== Sys2Proof/Certificates/Slice0/Obligations.lean ====
section
/-! DEFINITION. The statements for the provers. Unless a statement says otherwise, `A` in a docstring is the receiver
after operand selection (R74). A conclusion `exec i s = .next { s with … }` says at once that the command completes, what
it writes, and that every other register, the undelivered input and the parameters stay as they were. No statement rests
on the value `State.reset` gives the model's own fields (log entries 1 and 3). -/

open Sys2Proof Sys2Proof.Machine

/-! ### Values and constants -/

/-- R10: `num`, `val` and `neg?` fit together, over every pattern and both flags. -/
def Obligations.NumberOfValueAndBack : Prop :=
  (∀ v : Value, v.uns = true → v.num = v.pat.toNat ∧ 0 ≤ v.num ∧ v.num ≤ 2 ^ 64 - 1) ∧
  (∀ v : Value, v.uns = false → -(2 ^ 63) ≤ v.num ∧ v.num ≤ 2 ^ 63 - 1 ∧
    (v.pat.toNat < 2 ^ 63 → v.num = v.pat.toNat) ∧ (2 ^ 63 ≤ v.pat.toNat → v.num = (v.pat.toNat : Int) - 2 ^ 64)) ∧
  (∀ v : Value, Value.val v.num v.uns = v) ∧
  (∀ (p : Int) (u : Bool), (Value.val p u).uns = u ∧ ((Value.val p u).pat.toNat : Int) = p % 2 ^ 64) ∧
  (∀ v : Value, v.isNeg = true ↔ v.num < 0)

/-- R22: the numbers of the eight named constants. -/
def Obligations.NamedConstantsHaveTheirNumbers : Prop :=
  Value.zero = { low := 0x00000000, high := 0x00000000, uns := false } ∧ Value.zero.num = 0 ∧
  Value.one = { low := 0x00000001, high := 0x00000000, uns := false } ∧ Value.one.num = 1 ∧
  Value.negOne = { low := 0xFFFFFFFF, high := 0xFFFFFFFF, uns := false } ∧ Value.negOne.num = -1 ∧
  Value.minValue = { low := 0x00000000, high := 0x80000000, uns := false } ∧ Value.minValue.num = -(2 ^ 63) ∧
  Value.maxValue = { low := 0xFFFFFFFF, high := 0x7FFFFFFF, uns := false } ∧ Value.maxValue.num = 2 ^ 63 - 1 ∧
  Value.uzero = { low := 0x00000000, high := 0x00000000, uns := true } ∧ Value.uzero.num = 0 ∧
  Value.uone = { low := 0x00000001, high := 0x00000000, uns := true } ∧ Value.uone.num = 1 ∧
  Value.maxUnsigned = { low := 0xFFFFFFFF, high := 0xFFFFFFFF, uns := true } ∧ Value.maxUnsigned.num = 2 ^ 64 - 1

/-! ### Encoding -/

/-- Decode and encode agree: for every command that fits a packet, with every operand. -/
def Obligations.DecodeOfEncodeIsTheCommand : Prop :=
  ∀ i : Instr, i.wellFormed = true → decode (encode i) = .ok i

/-- Every legal packet decodes to a command that fits a packet, that keeps its tag, and whose own packet decodes to it. -/
def Obligations.DecodedCommandIsWellFormed : Prop :=
  ∀ (p : Packet) (i : Instr), decode p = .ok i →
    i.wellFormed = true ∧ i.tag = p.op ∧ (encode i).op = p.op ∧ (encode i).rsv = 0 ∧ decode (encode i) = .ok i

/-- R73: decode is total, a packet is legal exactly by `W0`, and an illegal one raises IllegalCommand and changes nothing
else. -/
def Obligations.LegalityIsReadFromTheFirstWord : Prop :=
  (∀ p : Packet, (∃ i, decode p = .ok i) ↔ p.w0.extractLsb' 9 23 = 0 ∧ p.w0.extractLsb' 0 6 ∈ assignedTags) ∧
  (∀ p : Packet, (∃ i, decode p = .ok i) ↔ ∃ t ∈ assignedTags, p.w0 &&& 0xFFFFFE3F = t.setWidth 32) ∧
  (∀ p q : Packet, p.w0 = q.w0 → ((∃ i, decode p = .ok i) ↔ ∃ i, decode q = .ok i)) ∧
  (∀ (p : Packet) (s : State), s.err = .none → (¬ ∃ i, decode p = .ok i) →
    performPacket p s = .next { s with err := .illegalCommand })

/-- The worked encodings of R92, two more legal words and two illegal ones, decoded. -/
def Obligations.WorkedEncodingsDecode : Prop :=
  decode ⟨0x00000010, 0x00000007, 0, 0x00000002, 0⟩ = .ok (.add (.lit ⟨7, 0, false⟩) ⟨2, 0, false⟩) ∧
  decode ⟨0x00000192, 0, 0, 0x00000001, 0⟩ = .ok (.sub .res ⟨1, 0, true⟩) ∧
  decode ⟨0x00000068, 0x00000001, 0, 0x00000040, 0⟩ = .ok (.shl (.lit ⟨1, 0, true⟩) 64) ∧
  decode ⟨0x00000038, 0, 0x80000000, 0x0000000A, 0⟩ = .ok (.toStr (.lit Value.minValue) 10) ∧
  decode ⟨0x0000003F, 0, 0, 0, 0⟩ = .ok .clrErr ∧
  decode ⟨0x00000210, 7, 0, 2, 0⟩ = .error .reservedBits ∧
  decode ⟨0x00000005, 0, 0, 0, 0⟩ = .error (.unassignedTag 5)

/-- R74: a legal packet with CHAIN = 1 is performed as the same packet with CHAIN = 0 and `RES` in its A fields; with
CHAIN = 0 operand A is the packet's, and operand B is the packet's always. -/
def Obligations.ChainTakesTheReceiverFromRes : Prop :=
  (∀ (p : Packet) (s : State), (∃ i, decode p = .ok i) → p.chain = true →
    performPacket p s = performPacket (withLiteral p s.res) s) ∧
  (∀ (p : Packet) (s : State), p.chain = true → receiver p.receiver s = s.res) ∧
  (∀ (p : Packet) (s : State), p.chain = false → receiver p.receiver s = ⟨p.w1, p.w2, p.w0.getLsbD 6⟩) ∧
  (∀ p : Packet, p.other = ⟨p.w3, p.w4, p.w0.getLsbD 7⟩)

/-- R76: two legal packets of one command that agree on the fields the last column of R75 lists for it do the same. -/
def Obligations.FieldsACommandDoesNotReadAreIgnored : Prop :=
  ∀ (p q : Packet) (s : State), (∃ i, decode p = .ok i) → q.op = p.op → q.rsv = p.rsv → readsAgree p.op p q s →
    performPacket p s = performPacket q s

/-! ### The frame of every command -/

/-- A step takes the packet at the head of the host's deliveries, legal or not, and performs it; of a legal packet it runs
the decoded command. The list of deliveries is the model's choice, log entry 1. -/
def Obligations.StepRunsTheDecodedCommand : Prop :=
  (∀ (p : Packet) (rest : List HostEvent) (s : State),
    step { s with input := .command p :: rest } = performPacket p { s with input := rest }) ∧
  (∀ (p : Packet) (i : Instr) (rest : List HostEvent) (s : State), decode p = .ok i →
    step { s with input := .command p :: rest } = exec i { s with input := rest })

/-- R320: the three steps of performing a packet, in their order, with the operands its command gets. -/
def Obligations.PacketIsPerformedInTheFrame : Prop :=
  ∀ (p : Packet) (s : State),
    (s.err ≠ .none → decode p ≠ .ok .clrErr → performPacket p s = .next s) ∧
    (s.err = .none → (∀ i, decode p ≠ .ok i) → performPacket p s = .next { s with err := .illegalCommand }) ∧
    (p.rsv = 0 → decode p = decodeTag p) ∧
    (∀ i, decode p = .ok i → performPacket p s = exec i s) ∧
    (p.chain = true → receiver p.receiver s = s.res) ∧
    (p.chain = false → receiver p.receiver s = ⟨p.w1, p.w2, p.w0.getLsbD 6⟩) ∧
    p.other = ⟨p.w3, p.w4, p.w0.getLsbD 7⟩ ∧
    (decode p = .ok .clrErr → performPacket p s = .next { s with err := .none }) ∧
    (∀ i, decode p = .ok i → s.err = .none → ∃ t, performPacket p s = .next t ∧
      t.input = s.input ∧ t.cfg = s.cfg ∧
      (t.err = .none ∧ (∀ r, r ≠ destination i → ¬ differ r s t) ∨ t.err ≠ .none ∧ t = { s with err := t.err }))

/-- R331: while an error is held, every packet other than a legal CLRERR, legal or not, is dropped: nothing changes. -/
def Obligations.HeldErrorDropsEveryOtherPacket : Prop :=
  (∀ (i : Instr) (s : State), i ≠ .clrErr → s.err ≠ .none → exec i s = .next s) ∧
  (∀ (p : Packet) (s : State), s.err ≠ .none → decode p ≠ .ok .clrErr → performPacket p s = .next s)

/-- R325: a reserved bit or an unassigned tag raises IllegalCommand when no error is held; nothing else is recorded. -/
def Obligations.IllegalPacketRaisesIllegalCommand : Prop :=
  ∀ (p : Packet) (s : State), s.err = .none →
    (p.w0.extractLsb' 9 23 ≠ 0 ∨ p.w0.extractLsb' 0 6 ∈ unassignedTags) →
    performPacket p s = .next { s with err := .illegalCommand }

/-- R36: the write discipline, for every command in every state. -/
def Obligations.CommandWritesOnlyItsDestination : Prop :=
  ∀ (i : Instr) (s t : State), exec i s = .next t →
    t.input = s.input ∧ t.cfg = s.cfg ∧
    (s.err = .none → t.err = .none → ∀ r, r ≠ destination i → ¬ differ r s t) ∧
    (s.err = .none → t.err ≠ .none → t = { s with err := t.err }) ∧
    (s.err ≠ .none → i ≠ .clrErr → t = s) ∧
    (i = .clrErr → t = { s with err := .none })

/-- R321, an inference the spec marks as its own: at most one register changes per packet, `ERR` never goes from one kind
to another, and the four result registers are frozen while an error is held. -/
def Obligations.AtMostOneRegisterChangesPerPacket : Prop :=
  ∀ (p : Packet) (s t : State), performPacket p s = .next t →
    (∀ r r', differ r s t → differ r' s t → r = r') ∧
    (t.err = s.err ∨ s.err = .none ∨ t.err = .none) ∧
    (s.err ≠ .none → t.res = s.res ∧ t.aux = s.aux ∧ t.byt = s.byt ∧ t.dig = s.dig)

/-- R322: which kinds the block raises and which commands raise them, with the codes of R35. -/
def Obligations.OnlyThreeKindsAreEverRaised : Prop :=
  (∀ (i : Instr) (s t : State), exec i s = .next t → t.err ≠ s.err → t.err ≠ .none →
    (t.err = .divisionByZero ∧ ((∃ a b, i = .div a b) ∨ ∃ a b, i = .mod a b)) ∨
    (t.err = .invalidRadix ∧ ∃ a r, i = .toStr a r)) ∧
  (∀ s t : State, step s = .next t →
    t.err = s.err ∨ t.err = .none ∨ t.err = .invalidRadix ∨ t.err = .divisionByZero ∨ t.err = .illegalCommand) ∧
  (ErrKind.none.code = 0 ∧ ErrKind.emptyInput.code = 1 ∧ ErrKind.invalidRadix.code = 2 ∧
    ErrKind.malformedInput.code = 3 ∧ ErrKind.divisionByZero.code = 4 ∧ ErrKind.illegalCommand.code = 5)

/-- R280: CLRERR, in every state. -/
def Obligations.ClrErrClearsOnlyTheLatch : Prop :=
  (encode .clrErr).op = 0x3F ∧
  ∀ s : State, exec .clrErr s = .next { s with err := .none }

/-- R366 and R371, of the machine as a whole: every step answers a next state, so nothing stops it (log entry 12). With
log entry 1 the step uses up exactly the delivery at the head, with log entry 2 a step with nothing delivered changes
nothing, since packets and reset are the only events that change the state (R350), and with log entry 3 the parameters
stay. -/
def Obligations.EveryStepCompletes : Prop :=
  ∀ s : State, ∃ t, step s = .next t ∧ t.input = s.input.tail ∧ t.cfg = s.cfg ∧ (s.input = [] → t = s)

/-- The order of R55 and R367 for a whole list of deliveries, which is the model's choice, log entry 1: what has been delivered after `es` does not matter to the performing of `es`,
nothing is lost and nothing is performed twice. Runs are the host's `Host.Core.run`. -/
def Obligations.DeliveriesArePerformedInOrder : Prop :=
  ∀ (es fs : List HostEvent) (s : State), ∃ t : State,
    t.input = [] ∧
    Host.Core.run core es.length { s with input := es } = .next t ∧
    ∀ k, Host.Core.run core (es.length + k) { s with input := es ++ fs } = Host.Core.run core k { t with input := fs }

/-! ### Reset and the invariant -/

/-- R45: the reset value of every register. -/
def Obligations.ResetValuesOfEveryRegister : Prop :=
  State.reset.res = Value.zero ∧ State.reset.aux = 0x00000000 ∧
  (∀ i : Fin 8, State.reset.byt[i] = 0x00) ∧
  State.reset.dig.neg = false ∧ State.reset.dig.len = 0 ∧ (∀ i : Fin 64, State.reset.dig.digits[i] = 0) ∧
  State.reset.err = .none

/-- The registers after reset do not depend on anything before it (R350, R352). That reset is an event in the list of
deliveries is the model's choice, log entries 1 and 14. -/
def Obligations.ResetForgetsTheRegisters : Prop :=
  ∀ (s : State) (rest : List HostEvent), ∃ t, step { s with input := .reset :: rest } = .next t ∧
    t.sameRegisters State.reset

/-- The invariant of R34 and R35 holds at reset. -/
def Obligations.ResetSatisfiesTheInvariant : Prop := State.reset.Inv

/-- The invariant of R34 and R35 is kept by every step, from every state that has it. -/
def Obligations.EveryStepKeepsTheInvariant : Prop :=
  ∀ s t : State, s.Inv → step s = .next t → t.Inv

/-! ### Representation -/

/-- R100. -/
def Obligations.FromBitsCopiesTheReceiver : Prop :=
  ∀ (a : Receiver) (s : State), (encode (.fromBits a)).op = 0x00 ∧
    (s.err = .none → exec (.fromBits a) s =
      .next { s with res := ⟨(receiver a s).low, (receiver a s).high, (receiver a s).uns⟩ })

/-- R103. -/
def Obligations.FromIntExtendsTheLowWord : Prop :=
  ∀ (a : Receiver) (s : State), (encode (.fromInt a)).op = 0x01 ∧
    (s.err = .none → (receiver a s).uns = false → exec (.fromInt a) s =
      .next { s with res := ⟨(receiver a s).low,
        if (receiver a s).low.getLsbD 31 = true then 0xFFFFFFFF else 0x00000000, false⟩ }) ∧
    (s.err = .none → (receiver a s).uns = true → exec (.fromInt a) s =
      .next { s with res := ⟨(receiver a s).low, 0x00000000, true⟩ })

/-- R106: the low word, whatever `A.high` and the flag; `AUX` does not record which reading applies. -/
def Obligations.ToIntWritesTheLowWord : Prop :=
  ∀ (a : Receiver) (s : State), (encode (.toInt a)).op = 0x02 ∧
    (s.err = .none → exec (.toInt a) s = .next { s with aux := (receiver a s).low })

/-- R109 and R110. -/
def Obligations.ToUnsignedAndToSignedKeepThePattern : Prop :=
  ∀ (a : Receiver) (s : State),
    (encode (.toUnsigned a)).op = 0x03 ∧ (encode (.toSigned a)).op = 0x04 ∧
    (s.err = .none → exec (.toUnsigned a) s =
      .next { s with res := ⟨(receiver a s).low, (receiver a s).high, true⟩ }) ∧
    (s.err = .none → exec (.toSigned a) s =
      .next { s with res := ⟨(receiver a s).low, (receiver a s).high, false⟩ })

/-- R112, an inference the spec marks as its own: re-reading changes the flag only, and FROMINT represents the integer
it is given, which TOINT returns. -/
def Obligations.RepresentationCommandsRoundTrip : Prop :=
  (∀ (v : Value) (s : State), s.err = .none → ∃ t₁ t₂ t₃,
    exec (.fromBits (.lit v)) s = .next t₁ ∧ exec (.toUnsigned .res) t₁ = .next t₂ ∧
    exec (.toSigned .res) t₂ = .next t₃ ∧ t₁.res = v ∧ t₂.res = .ofPat v.pat true ∧ t₃.res = .ofPat v.pat false) ∧
  (∀ (n h : Word) (u : Bool) (s : State), s.err = .none → ∃ t₁ t₂,
    exec (.fromInt (.lit ⟨n, h, u⟩)) s = .next t₁ ∧ exec (.toInt .res) t₁ = .next t₂ ∧
    t₁.res.num = (if u then (n.toNat : Int) else n.toInt) ∧ t₂.aux = n)

/-! ### The adder -/

/-- R120. -/
def Obligations.AddWrapsThePatternSum : Prop :=
  ∀ (a : Receiver) (b : Value) (s : State), (encode (.add a b)).op = 0x10 ∧
    (s.err = .none → exec (.add a b) s =
      .next { s with res := .val ((receiver a s).pat.toNat + b.pat.toNat : Nat) (receiver a s).uns })

/-- R125. -/
def Obligations.NegWrapsThePatternNegation : Prop :=
  ∀ (a : Receiver) (s : State), (encode (.neg a)).op = 0x11 ∧
    (s.err = .none → exec (.neg a) s =
      .next { s with res := .val (2 ^ 64 - (receiver a s).pat.toNat) (receiver a s).uns })

/-- R130. -/
def Obligations.SubWrapsThePatternDifference : Prop :=
  ∀ (a : Receiver) (b : Value) (s : State), (encode (.sub a b)).op = 0x12 ∧
    (s.err = .none → exec (.sub a b) s =
      .next { s with res := .val ((receiver a s).pat.toNat - b.pat.toNat) (receiver a s).uns })

/-- R121, R131 and R141, inferences the spec marks as its own: ADD, SUB, NEG and MUL are the arithmetic of the numbers
modulo 2^64, whatever the flags. -/
def Obligations.ArithmeticIsModularOnNumbers : Prop :=
  ∀ (a : Receiver) (b : Value) (s : State), s.err = .none →
    (∃ t, exec (.add a b) s = .next t ∧ t.res.num ≡ (receiver a s).num + b.num [ZMOD 2 ^ 64]) ∧
    (∃ t, exec (.sub a b) s = .next t ∧ t.res.num ≡ (receiver a s).num - b.num [ZMOD 2 ^ 64]) ∧
    (∃ t, exec (.neg a) s = .next t ∧ t.res.num ≡ -(receiver a s).num [ZMOD 2 ^ 64]) ∧
    (∃ t, exec (.mul a b) s = .next t ∧ t.res.num ≡ (receiver a s).num * b.num [ZMOD 2 ^ 64])

/-- R135: adding and then subtracting returns the receiver, and so does negating twice, `MIN_VALUE` included. -/
def Obligations.AddThenSubAndDoubleNegationReturn : Prop :=
  ∀ (a b : Value) (s : State), s.err = .none →
    (∃ t₁ t₂ t₃, exec (.add (.lit a) b) s = .next t₁ ∧ exec (.sub .res b) t₁ = .next t₂ ∧
      exec (.eq .res a) t₂ = .next t₃ ∧ t₂.res = a ∧ t₃.aux = 1) ∧
    (∃ t₁ t₂ t₃, exec (.neg (.lit a)) s = .next t₁ ∧ exec (.neg .res) t₁ = .next t₂ ∧
      exec (.eq .res a) t₂ = .next t₃ ∧ t₂.res = a ∧ t₃.aux = 1) ∧
    (∃ t, exec (.neg (.lit Value.minValue)) s = .next t ∧ t.res = Value.minValue)

/-! ### The multiplier -/

/-- R140. -/
def Obligations.MulWrapsThePatternProduct : Prop :=
  ∀ (a : Receiver) (b : Value) (s : State), (encode (.mul a b)).op = 0x13 ∧
    (s.err = .none → exec (.mul a b) s =
      .next { s with res := .val ((receiver a s).pat.toNat * b.pat.toNat : Nat) (receiver a s).uns })

/-- R143 and R147: the special cases of multiplication. -/
def Obligations.MulByZeroAndByMinValue : Prop :=
  ∀ (a : Receiver) (b : Value) (s : State), s.err = .none →
    ((receiver a s).low = 0 ∧ (receiver a s).high = 0 ∨ b.low = 0 ∧ b.high = 0 →
      exec (.mul a b) s = .next { s with res := ⟨0, 0, (receiver a s).uns⟩ }) ∧
    ((receiver a s).pat = Value.minValue.pat → exec (.mul a b) s = .next { s with res :=
      ⟨0, if b.low.getLsbD 0 = true then 0x80000000 else 0, (receiver a s).uns⟩ }) ∧
    (b.pat = Value.minValue.pat → exec (.mul a b) s = .next { s with res :=
      ⟨0, if (receiver a s).low.getLsbD 0 = true then 0x80000000 else 0, (receiver a s).uns⟩ })

/-! ### The divider -/

/-- R323: a zero divisor raises DivisionByZero, whatever the dividend and the flags. -/
def Obligations.ZeroDivisorRaisesDivisionByZero : Prop :=
  ∀ (a : Receiver) (b : Value) (s : State), s.err = .none → b.pat = 0 →
    exec (.div a b) s = .next { s with err := .divisionByZero } ∧
    exec (.mod a b) s = .next { s with err := .divisionByZero }

/-- R160: division truncates toward zero, under the receiver's flag. -/
def Obligations.DivTruncatesTowardZero : Prop :=
  ∀ (a : Receiver) (b : Value) (s : State), (encode (.div a b)).op = 0x14 ∧
    (s.err = .none → b.pat = 0 → exec (.div a b) s = .next { s with err := .divisionByZero }) ∧
    (s.err = .none → b.pat ≠ 0 → (receiver a s).uns = true → exec (.div a b) s =
      .next { s with res := .val ((receiver a s).pat.toNat / b.pat.toNat : Nat) true }) ∧
    (s.err = .none → b.pat ≠ 0 → (receiver a s).uns = false → exec (.div a b) s =
      .next { s with res := .val ((receiver a s).num.tdiv (Value.ofPat b.pat false).num) false })

/-- R180: the remainder, and its composition from DIV, MUL and SUB. -/
def Obligations.ModIsTheTruncatedRemainder : Prop :=
  ∀ (a : Receiver) (b : Value) (s : State), (encode (.mod a b)).op = 0x15 ∧
    (s.err = .none → b.pat = 0 → exec (.mod a b) s = .next { s with err := .divisionByZero }) ∧
    (s.err = .none → b.pat ≠ 0 → (receiver a s).uns = true → exec (.mod a b) s =
      .next { s with res := .val ((receiver a s).pat.toNat % b.pat.toNat : Nat) true }) ∧
    (s.err = .none → b.pat ≠ 0 → (receiver a s).uns = false → exec (.mod a b) s =
      .next { s with res := .val ((receiver a s).num.tmod (Value.ofPat b.pat false).num) false }) ∧
    (s.err = .none → b.pat ≠ 0 → ∃ t u, exec (.div a b) s = .next t ∧ exec (.mod a b) s = .next u ∧
      u.res = .val ((receiver a s).pat.toNat - t.res.pat.toNat * b.pat.toNat) (receiver a s).uns)

/-- R185, an inference the spec marks as its own: quotient times divisor plus remainder is the dividend, by the block's
own commands, and EQ says so. -/
def Obligations.QuotientTimesDivisorPlusRemainder : Prop :=
  ∀ (a b : Value) (s : State), s.err = .none → b.pat ≠ 0 → ∃ tr t₁ t₂ t₃ t₄,
    exec (.mod (.lit a) b) s = .next tr ∧ exec (.div (.lit a) b) s = .next t₁ ∧
    exec (.mul .res b) t₁ = .next t₂ ∧ exec (.add .res tr.res) t₂ = .next t₃ ∧ t₃.res = a ∧
    exec (.eq .res a) t₃ = .next t₄ ∧ t₄.aux = 1

/-! ### Bitwise commands and counts -/

/-- R190 to R193. -/
def Obligations.BitwiseCommandsActOnTheWords : Prop :=
  ∀ (a : Receiver) (b : Value) (s : State),
    (encode (.and a b)).op = 0x20 ∧ (encode (.or a b)).op = 0x21 ∧ (encode (.xor a b)).op = 0x22 ∧
    (encode (.not a)).op = 0x23 ∧
    (s.err = .none →
      exec (.and a b) s = .next { s with res :=
        ⟨(receiver a s).low &&& b.low, (receiver a s).high &&& b.high, (receiver a s).uns⟩ } ∧
      exec (.or a b) s = .next { s with res :=
        ⟨(receiver a s).low ||| b.low, (receiver a s).high ||| b.high, (receiver a s).uns⟩ } ∧
      exec (.xor a b) s = .next { s with res :=
        ⟨(receiver a s).low ^^^ b.low, (receiver a s).high ^^^ b.high, (receiver a s).uns⟩ } ∧
      exec (.not a) s = .next { s with res :=
        ⟨~~~(receiver a s).low, ~~~(receiver a s).high, (receiver a s).uns⟩ })

/-- R194, an inference the spec marks as its own: each acts on the 64-bit pattern, and NOT of a signed Value is
`-num - 1` (R193). -/
def Obligations.BitwiseCommandsActOnThePattern : Prop :=
  ∀ (a : Receiver) (b : Value) (s : State), s.err = .none →
    exec (.and a b) s = .next { s with res := .ofPat ((receiver a s).pat &&& b.pat) (receiver a s).uns } ∧
    exec (.or a b) s = .next { s with res := .ofPat ((receiver a s).pat ||| b.pat) (receiver a s).uns } ∧
    exec (.xor a b) s = .next { s with res := .ofPat ((receiver a s).pat ^^^ b.pat) (receiver a s).uns } ∧
    exec (.not a) s = .next { s with res := .ofPat (~~~(receiver a s).pat) (receiver a s).uns } ∧
    ((receiver a s).uns = false → ∃ t, exec (.not a) s = .next t ∧ t.res.num = -(receiver a s).num - 1)

/-- R200, with R202 at zero: the count is the length of the zero run from bit 63 down. -/
def Obligations.ClzCountsTheZerosFromTheTop : Prop :=
  ∀ (a : Receiver) (s : State), (encode (.clz a)).op = 0x24 ∧
    (s.err = .none → ∃ n : Nat, exec (.clz a) s = .next { s with aux := BitVec.ofNat 32 n } ∧ n ≤ 64 ∧
      (∀ i, i < n → (receiver a s).pat.getLsbD (63 - i) = false) ∧
      (n < 64 → (receiver a s).pat.getLsbD (63 - n) = true))

/-- R201, with R202 at zero: the count is the length of the zero run from bit 0 up. -/
def Obligations.CtzCountsTheZerosFromTheBottom : Prop :=
  ∀ (a : Receiver) (s : State), (encode (.ctz a)).op = 0x25 ∧
    (s.err = .none → ∃ n : Nat, exec (.ctz a) s = .next { s with aux := BitVec.ofNat 32 n } ∧ n ≤ 64 ∧
      (∀ i, i < n → (receiver a s).pat.getLsbD i = false) ∧
      (n < 64 → (receiver a s).pat.getLsbD n = true))

/-! ### Shifts and rotates -/

/-- R210. -/
def Obligations.ShlMultipliesThePattern : Prop :=
  ∀ (a : Receiver) (c : Nat) (s : State), (encode (.shl a c)).op = 0x28 ∧
    (s.err = .none → exec (.shl a c) s =
      .next { s with res := .val ((receiver a s).pat.toNat * 2 ^ (c % 64) : Nat) (receiver a s).uns })

/-- R211. -/
def Obligations.ShruDividesThePattern : Prop :=
  ∀ (a : Receiver) (c : Nat) (s : State), (encode (.shru a c)).op = 0x2A ∧
    (s.err = .none → exec (.shru a c) s =
      .next { s with res := .val ((receiver a s).pat.toNat / 2 ^ (c % 64) : Nat) (receiver a s).uns })

/-- R212, for either setting of `ASR_UNSIGNED_FILL`: the fill bit is `A.high[31]` for a signed receiver and under `sign`,
and 0 for an unsigned receiver under `zero`. -/
def Obligations.ShrFillsTheTopBits : Prop :=
  ∀ (a : Receiver) (c : Nat) (s : State), (encode (.shr a c)).op = 0x29 ∧
    (s.err = .none →
      ((receiver a s).uns = false ∨ s.cfg.asrUnsignedFill = .sign →
        let fill : Nat := if (receiver a s).high.getLsbD 31 = true then 2 ^ 64 - 2 ^ (64 - c % 64) else 0
        exec (.shr a c) s =
          .next { s with res := .val ((receiver a s).pat.toNat / 2 ^ (c % 64) + fill : Nat) (receiver a s).uns }) ∧
      ((receiver a s).uns = true → s.cfg.asrUnsignedFill = .zero → exec (.shr a c) s =
        .next { s with res := .val ((receiver a s).pat.toNat / 2 ^ (c % 64) : Nat) true }))

/-- The corner case of R212: for a signed receiver SHR rounds toward minus infinity. -/
def Obligations.ShrOfASignedReceiverIsFloorDivision : Prop :=
  ∀ (a : Receiver) (c : Nat) (s : State), s.err = .none → (receiver a s).uns = false →
    ∃ t, exec (.shr a c) s = .next t ∧ t.res.uns = false ∧ t.res.num = (receiver a s).num / 2 ^ (c % 64)

/-- R220 and R221. -/
def Obligations.RotatesJoinComplementaryShifts : Prop :=
  ∀ (a : Receiver) (c : Nat) (s : State),
    (encode (.rotl a c)).op = 0x2B ∧ (encode (.rotr a c)).op = 0x2C ∧
    (s.err = .none → c % 64 = 0 →
      exec (.rotl a c) s = .next { s with res := receiver a s } ∧
      exec (.rotr a c) s = .next { s with res := receiver a s }) ∧
    (s.err = .none → c % 64 ≠ 0 →
      exec (.rotl a c) s = .next { s with res := .val (((receiver a s).pat.toNat * 2 ^ (c % 64)) % 2 ^ 64 |||
        (receiver a s).pat.toNat / 2 ^ (64 - c % 64) : Nat) (receiver a s).uns } ∧
      exec (.rotr a c) s = .next { s with res := .val ((receiver a s).pat.toNat / 2 ^ (c % 64) |||
        ((receiver a s).pat.toNat * 2 ^ (64 - c % 64)) % 2 ^ 64 : Nat) (receiver a s).uns })

/-- R222, an inference the spec marks as its own: counts act modulo 64, rotates undo each other and turn into each other,
SHRU after SHL clears the top bits. -/
def Obligations.ShiftAndRotateLaws : Prop :=
  ∀ (a : Value) (m : Nat) (s : State), s.err = .none →
    (exec (.shl (.lit a) (m + 64)) s = exec (.shl (.lit a) m) s ∧
     exec (.shr (.lit a) (m + 64)) s = exec (.shr (.lit a) m) s ∧
     exec (.shru (.lit a) (m + 64)) s = exec (.shru (.lit a) m) s ∧
     exec (.rotl (.lit a) (m + 64)) s = exec (.rotl (.lit a) m) s ∧
     exec (.rotr (.lit a) (m + 64)) s = exec (.rotr (.lit a) m) s) ∧
    (∃ t u, exec (.rotl (.lit a) m) s = .next t ∧ exec (.rotr .res m) t = .next u ∧ u.res = a) ∧
    exec (.rotl (.lit a) m) s = exec (.rotr (.lit a) ((64 - m % 64) % 64)) s ∧
    (∃ t u, exec (.shl (.lit a) m) s = .next t ∧ exec (.shru .res m) t = .next u ∧
      u.res = .val (a.pat.toNat % 2 ^ (64 - m % 64) : Nat) a.uns)

/-! ### The comparison tree -/

/-- R231. -/
def Obligations.EqComparesFlagsAndWords : Prop :=
  ∀ (a : Receiver) (b : Value) (s : State), (encode (.eq a b)).op = 0x30 ∧
    (s.err = .none →
      ((receiver a s).uns ≠ b.uns ∧ (receiver a s).high.getLsbD 31 = true ∧ b.high.getLsbD 31 = true →
        exec (.eq a b) s = .next { s with aux := 0x00000000 }) ∧
      (¬ ((receiver a s).uns ≠ b.uns ∧ (receiver a s).high.getLsbD 31 = true ∧ b.high.getLsbD 31 = true) →
        exec (.eq a b) s = .next { s with aux :=
          if (receiver a s).low = b.low ∧ (receiver a s).high = b.high then 0x00000001 else 0x00000000 }))

/-- R232, an inference the spec marks as its own: EQ answers 1 exactly for equal numbers. -/
def Obligations.EqIsEqualityOfNumbers : Prop :=
  ∀ (a : Receiver) (b : Value) (s : State), s.err = .none →
    exec (.eq a b) s = .next { s with aux := if (receiver a s).num = b.num then 1 else 0 }

/-- R235: the six cases, the first that applies, with `sub` as the pattern difference of R130. -/
def Obligations.CmpTakesTheFirstCaseThatApplies : Prop :=
  ∀ (a : Receiver) (b : Value) (s : State), (encode (.cmp a b)).op = 0x31 ∧
    (s.err = .none →
      let minus : Word := 0xFFFFFFFF
      let plus : Word := 0x00000001
      let bySubtraction : Word := if ((receiver a s).pat - b.pat).getLsbD 63 = true then minus else plus
      let byWords : Word :=
        if (receiver a s).high.toNat < b.high.toNat ∨
          (receiver a s).high = b.high ∧ (receiver a s).low.toNat < b.low.toNat then minus else plus
      let answer : Word :=
        if (receiver a s).isNeg = true ∧ b.isNeg = false then minus
        else if b.isNeg = true ∧ (receiver a s).isNeg = false then plus
        else if (receiver a s).isNeg = true ∧ b.isNeg = true then bySubtraction
        else if (receiver a s).uns = true ∨ b.uns = true then byWords
        else bySubtraction
      (exec (.eq a b) s = .next { s with aux := 1 } → exec (.cmp a b) s = .next { s with aux := 0x00000000 }) ∧
      (exec (.eq a b) s ≠ .next { s with aux := 1 } → exec (.cmp a b) s = .next { s with aux := answer }))

/-- R237, an inference the spec marks as its own: CMP is the order of the numbers, for every combination of flags. -/
def Obligations.CmpIsTheOrderOfNumbers : Prop :=
  ∀ (a : Receiver) (b : Value) (s : State), s.err = .none →
    exec (.cmp a b) s = .next { s with aux :=
      if (receiver a s).num < b.num then 0xFFFFFFFF else if (receiver a s).num = b.num then 0x00000000
      else 0x00000001 }

/-! ### The digit pipeline -/

/-- R324: a radix outside 2..36 raises InvalidRadix, whatever the value. -/
def Obligations.RadixOutsideTheRangeRaisesInvalidRadix : Prop :=
  ∀ (a : Receiver) (r : Nat) (s : State), s.err = .none → (r < 2 ∨ 36 < r) →
    exec (.toStr a r) s = .next { s with err := .invalidRadix }

/-- R250: the sign and the base-`r` digits of `|num(A)|`, most significant first, no leading zeros, one digit 0 for zero,
and 0 in every place beyond `LEN`. -/
def Obligations.ToStrExtractsTheDigits : Prop :=
  ∀ (a : Receiver) (r : Nat) (s : State), (encode (.toStr a r)).op = 0x38 ∧
    (s.err = .none → (r < 2 ∨ 36 < r) → exec (.toStr a r) s = .next { s with err := .invalidRadix }) ∧
    (s.err = .none → 2 ≤ r → r ≤ 36 → ∃ d : DigitString, exec (.toStr a r) s = .next { s with dig := d } ∧
      (d.neg = true ↔ (receiver a s).num < 0) ∧
      ((receiver a s).num = 0 → d.len.toNat = 1) ∧
      ((receiver a s).num ≠ 0 → 1 ≤ d.len.toNat ∧ d.len.toNat ≤ 64 ∧
        r ^ (d.len.toNat - 1) ≤ (receiver a s).num.natAbs ∧ (receiver a s).num.natAbs < r ^ d.len.toNat) ∧
      (∀ i : Fin 64, i.val < d.len.toNat →
        d.digits[i].toNat = (receiver a s).num.natAbs / r ^ (d.len.toNat - 1 - i.val) % r) ∧
      (∀ i : Fin 64, d.len.toNat ≤ i.val → d.digits[i] = 0))

/-- R259, for the host-side parser of R290 to R294 built from the block's `mul`, `add` and `negate`: the text of the digits
TOSTR writes is read back as the Value. The letter case is an argument of the rendering (log entry 9). The parser compares
the tokens of R291 letter by letter (log entry 10), on which the texts nan, NAN and infinity in the large radixes rest. -/
def Obligations.StringRoundTrip : Prop :=
  ∀ (v : Value) (r : Nat) (c : DigitCase) (tokensFirst : Bool) (s : State), s.err = .none → 2 ≤ r → r ≤ 36 →
    ∃ t, exec (.toStr (.lit v) r) s = .next t ∧ fromString tokensFirst (render c t.dig) v.uns r = .ok v

/-- R296, an inference the spec marks as its own: the block realises `fromString`. For every text, flag and radix, the
host's own tests either fail as `fromString` fails, and no command is issued, or the commands FROMBITS, MUL and ADD for each
chunk, and NEG leave in `RES` the Value `fromString` gives and change nothing else. The round trip of R259 holds for this
realisation. The open points of the tests are the model's choice, log entry 10, and the letter case is an argument, log
entry 9. -/
def Obligations.BlockRealisesFromString : Prop :=
  (∀ (tokensFirst : Bool) (text : List Char) (u : Bool) (radix : Int) (s : State), s.err = .none →
    (∀ e, fromString tokensFirst text u radix = .error e → fromStringCommands tokensFirst text u radix = .error e) ∧
    (∀ v, fromString tokensFirst text u radix = .ok v → ∃ is, fromStringCommands tokensFirst text u radix = .ok is ∧
      execAll is s = .next { s with res := v })) ∧
  (∀ (v : Value) (r : Nat) (c : DigitCase) (tokensFirst : Bool) (s : State), s.err = .none → 2 ≤ r → r ≤ 36 →
    ∃ t is, exec (.toStr (.lit v) r) s = .next t ∧
      fromStringCommands tokensFirst (render c t.dig) v.uns r = .ok is ∧ execAll is t = .next { t with res := v })

/-! ### Byte serialization -/

/-- R274 and R275: the words put together from the eight input bytes of R271. -/
def Obligations.FromBytesAssemblesTheWords : Prop :=
  ∀ (a : Receiver) (s : State), (encode (.fromBytesLE a)).op = 0x08 ∧ (encode (.fromBytesBE a)).op = 0x09 ∧
    (s.err = .none →
      let byte (i : Nat) : Nat := ((receiver a s).pat.extractLsb' (8 * i) 8).toNat
      exec (.fromBytesLE a) s = .next { s with res :=
        ⟨BitVec.ofNat 32 (byte 3 * 2 ^ 24 + byte 2 * 2 ^ 16 + byte 1 * 2 ^ 8 + byte 0),
         BitVec.ofNat 32 (byte 7 * 2 ^ 24 + byte 6 * 2 ^ 16 + byte 5 * 2 ^ 8 + byte 4), (receiver a s).uns⟩ } ∧
      exec (.fromBytesBE a) s = .next { s with res :=
        ⟨BitVec.ofNat 32 (byte 4 * 2 ^ 24 + byte 5 * 2 ^ 16 + byte 6 * 2 ^ 8 + byte 7),
         BitVec.ofNat 32 (byte 0 * 2 ^ 24 + byte 1 * 2 ^ 16 + byte 2 * 2 ^ 8 + byte 3), (receiver a s).uns⟩ })

/-- R276 and R277: the eight lanes of `BYT`, in each layout. -/
def Obligations.ToBytesWritesTheLanes : Prop :=
  ∀ (a : Receiver) (s : State), (encode (.toBytesLE a)).op = 0x0A ∧ (encode (.toBytesBE a)).op = 0x0B ∧
    (s.err = .none →
      (∃ b, exec (.toBytesLE a) s = .next { s with byt := b } ∧
        ∀ i : Fin 8, b[i] = (receiver a s).pat.extractLsb' (8 * i.val) 8) ∧
      (∃ b, exec (.toBytesBE a) s = .next { s with byt := b } ∧
        ∀ i : Fin 8, b[i] = (receiver a s).pat.extractLsb' (8 * (7 - i.val)) 8))

/-- R278, an inference the spec marks as its own: the host carries the bytes of `BYT` back into the operand lanes with the
Value's flag, and FROMBYTES returns the Value; the layouts are each other's reversal. -/
def Obligations.ByteRoundTrip : Prop :=
  ∀ (v : Value) (s : State), s.err = .none →
    (∃ t u, exec (.toBytesLE (.lit v)) s = .next t ∧
      exec (.fromBytesLE (.lit (.ofBytesLE t.byt v.uns))) t = .next u ∧ u.res = v) ∧
    (∃ t u, exec (.toBytesBE (.lit v)) s = .next t ∧
      exec (.fromBytesBE (.lit (.ofBytesLE t.byt v.uns))) t = .next u ∧ u.res = v) ∧
    (∃ t u, exec (.toBytesLE (.lit v)) s = .next t ∧ exec (.toBytesBE (.lit v)) s = .next u ∧
      ∀ i : Fin 8, u.byt[i] = t.byt[7 - i.val])

/-! ### The accelerator's interface -/

/-- R312, an inference the spec marks as its own: LONG64 performs the accelerator's five operations, the two words in
`RES.low` and `RES.high`. The words are those of the laws of R311 on the two patterns, read unsigned (`true`) or signed
(`false`): product, quotient, and `a - (a/b)*b`. What the accelerator's interface answers, and for which operands, is the
model's reading, log entry 15. -/
def Obligations.BlockServesAsTheAccelerator : Prop :=
  ∀ (al ah bl bh : Word) (s : State), s.err = .none →
    let a (u : Bool) : Int := Value.num ⟨al, ah, u⟩
    let b (u : Bool) : Int := Value.num ⟨bl, bh, u⟩
    let completes (tag : AccelTag) (lo hi : Word) : Prop :=
      ∃ t, exec (accelCommand tag al ah bl bh) s = .next t ∧ t.err = .none ∧ t.res.low = lo ∧ t.res.high = hi
    let gives (tag : AccelTag) (n : Int) : Prop := completes tag (BitVec.ofInt 32 n) (BitVec.ofInt 32 (n / 2 ^ 32))
    gives .multiply (a true * b true) ∧
    (b true ≠ 0 →
      gives .signedDivide ((a false).tdiv (b false)) ∧
      gives .unsignedDivide (a true / b true) ∧
      gives .signedRemainder (a false - (a false).tdiv (b false) * b false) ∧
      gives .unsignedRemainder (a true - a true / b true * b true)) ∧
    (∀ tag lo hi, accelerate tag al ah bl bh = some (lo, hi) → completes tag lo hi)
end

