-- ==== Sys2Proof/Laws/Counts.lean ====
section
/-! SUPPORT. What the word counts of CLZ and CTZ find: the length of the zero run at one end of a word (R202). -/

namespace Sys2Proof.Machine

/-- The zero run downward from bit `k-1`: it ends at the first set bit, or at bit 0. -/
theorem zerosDown_spec (w : Word) (k : Nat) :
    zerosDown w k ≤ k ∧ (∀ i, i < zerosDown w k → w.getLsbD (k - 1 - i) = false) ∧
    (zerosDown w k < k → w.getLsbD (k - 1 - zerosDown w k) = true) := by
  induction k with
  | zero => simp [zerosDown]
  | succ k ih =>
    obtain ⟨h1, h2, h3⟩ := ih
    by_cases hb : w.getLsbD k = true
    · simp [zerosDown, hb]
    · simp only [zerosDown, hb]
      refine ⟨by simp; omega, fun i hi => ?_, fun h => ?_⟩
      · rcases i with _ | i
        · simpa using hb
        · have := h2 i (by simp at hi; omega)
          rwa [show k + 1 - 1 - (i + 1) = k - 1 - i by omega]
      · simp only [Bool.false_eq_true, if_false] at h ⊢
        rw [show k + 1 - 1 - (1 + zerosDown w k) = k - 1 - zerosDown w k by omega]
        exact h3 (by omega)

/-- The zero run upward from bit `32-k`: it ends at the first set bit, or at bit 31. -/
theorem zerosUp_spec (w : Word) (k : Nat) (hk : k ≤ 32) :
    zerosUp w k ≤ k ∧ (∀ i, i < zerosUp w k → w.getLsbD (32 - k + i) = false) ∧
    (zerosUp w k < k → w.getLsbD (32 - k + zerosUp w k) = true) := by
  induction k with
  | zero => simp [zerosUp]
  | succ k ih =>
    obtain ⟨h1, h2, h3⟩ := ih (by omega)
    by_cases hb : w.getLsbD (31 - k) = true
    · refine ⟨by simp [zerosUp, hb], fun i hi => ?_, fun _ => ?_⟩
      · simp [zerosUp, hb] at hi
      · rw [show zerosUp w (k + 1) = 0 by simp [zerosUp, hb], show 32 - (k + 1) + 0 = 31 - k by omega]
        exact hb
    · have e : zerosUp w (k + 1) = 1 + zerosUp w k := by simp [zerosUp, hb]
      rw [e]
      refine ⟨by omega, fun i hi => ?_, fun h => ?_⟩
      · rcases i with _ | i
        · rw [show 32 - (k + 1) + 0 = 31 - k by omega]
          simpa using hb
        · rw [show 32 - (k + 1) + (i + 1) = 32 - k + i by omega]
          exact h2 i (by omega)
      · rw [show 32 - (k + 1) + (1 + zerosUp w k) = 32 - k + zerosUp w k by omega]
        exact h3 (by omega)

end Sys2Proof.Machine
end

