-- ==== Sys2Proof/Laws/Datapath.lean ====
section
/-! SUPPORT. What the shared datapaths compute: patterns, limbs, the limb adder and multiplier, and the restoring
divider. Later proofs cite these instead of unfolding the datapaths. -/

namespace Sys2Proof

@[simp] theorem Value.ofPat_uns (p : Pattern) (u : Bool) : (Value.ofPat p u).uns = u := rfl

/-- Bit `i` of a pattern: of `low` below 32, of `high` from 32 on (R9). -/
theorem Value.getLsbD_pat (v : Value) (i : Nat) :
    v.pat.getLsbD i = if i < 32 then v.low.getLsbD i else v.high.getLsbD (i - 32) := by
  have h : v.pat.getLsbD i = (v.high ++ v.low).getLsbD i := rfl
  rw [h, BitVec.getLsbD_append]

/-- A pattern as a number is `high * 2^32 + low` (R9). -/
theorem Value.pat_toNat (v : Value) : v.pat.toNat = v.high.toNat * 2 ^ 32 + v.low.toNat := by
  have h : v.pat.toNat = (v.high ++ v.low).toNat := rfl
  rw [h, BitVec.toNat_append, ← Nat.shiftLeft_add_eq_or_of_lt v.low.isLt, Nat.shiftLeft_eq]

@[simp] theorem Value.pat_ofPat (p : Pattern) (u : Bool) : (Value.ofPat p u).pat = p := by
  apply BitVec.eq_of_getLsbD_eq
  intro i hi
  rw [Value.getLsbD_pat]
  by_cases h : i < 32
  · simp [Value.ofPat, h]
  · have e : 32 + (i - 32) = i := by omega
    have l : i - 32 < 32 := by omega
    simp [Value.ofPat, h, l, e]

@[simp] theorem Value.ofPat_pat (v : Value) : Value.ofPat v.pat v.uns = v := by
  have hl : v.pat.extractLsb' 0 32 = v.low := by
    apply BitVec.eq_of_getLsbD_eq
    intro i hi
    simp [Value.getLsbD_pat, hi]
  have hh : v.pat.extractLsb' 32 32 = v.high := by
    apply BitVec.eq_of_getLsbD_eq
    intro i hi
    simp [Value.getLsbD_pat, hi]
  rw [Value.ofPat, hl, hh]

/-- Two Values with one pattern and one flag are the same Value (R21). -/
theorem Value.eq_of_pat {a b : Value} (hp : a.pat = b.pat) (hu : a.uns = b.uns) : a = b := by
  rw [← Value.ofPat_pat a, ← Value.ofPat_pat b, hp, hu]

theorem Value.limb_low (v : Value) : v.low.toNat = v.limb1 * 2 ^ 16 + v.limb0 := by
  have := v.low.isLt
  simp only [Value.limb0, Value.limb1, BitVec.extractLsb'_toNat, Nat.shiftRight_eq_div_pow]
  omega

theorem Value.limb_high (v : Value) : v.high.toNat = v.limb3 * 2 ^ 16 + v.limb2 := by
  have := v.high.isLt
  simp only [Value.limb2, Value.limb3, BitVec.extractLsb'_toNat, Nat.shiftRight_eq_div_pow]
  omega

/-- A pattern as a number in its four limbs (R122). -/
theorem Value.pat_limbs (v : Value) :
    v.pat.toNat = v.limb3 * 2 ^ 48 + v.limb2 * 2 ^ 32 + v.limb1 * 2 ^ 16 + v.limb0 := by
  rw [v.pat_toNat, v.limb_low, v.limb_high]
  omega

/-- The pattern of a Value put together from limbs of 16 bits. -/
theorem Value.pat_ofLimbs {c0 c1 c2 c3 : Nat} (u : Bool) (h0 : c0 < 2 ^ 16) (h1 : c1 < 2 ^ 16) (h2 : c2 < 2 ^ 16)
    (h3 : c3 < 2 ^ 16) :
    (Value.ofLimbs c0 c1 c2 c3 u).pat.toNat = c3 * 2 ^ 48 + c2 * 2 ^ 32 + c1 * 2 ^ 16 + c0 := by
  rw [Value.pat_toNat]
  simp only [Value.ofLimbs, BitVec.toNat_ofNat]
  omega

@[simp] theorem Value.addLimbs_uns (a b : Value) : (a.addLimbs b).uns = a.uns := rfl
@[simp] theorem Value.mulLimbs_uns (a b : Value) : (a.mulLimbs b).uns = a.uns := rfl
@[simp] theorem Value.notWords_uns (a : Value) : a.notWords.uns = a.uns := rfl
@[simp] theorem Value.negate_uns (a : Value) : a.negate.uns = a.uns := rfl
@[simp] theorem Value.subLimbs_uns (a b : Value) : (a.subLimbs b).uns = a.uns := rfl

/-- The limb adder adds patterns modulo 2^64. -/
theorem Value.addLimbs_pat (a b : Value) : (a.addLimbs b).pat = a.pat + b.pat := by
  apply BitVec.eq_of_toNat_eq
  rw [BitVec.toNat_add, a.pat_limbs, b.pat_limbs, Value.addLimbs, Value.pat_ofLimbs _
    (Nat.mod_lt _ (by decide)) (Nat.mod_lt _ (by decide)) (Nat.mod_lt _ (by decide)) (Nat.mod_lt _ (by decide))]
  omega

/-- NOT on words is NOT on the pattern. -/
theorem Value.notWords_pat (a : Value) : a.notWords.pat = ~~~a.pat := by
  apply BitVec.eq_of_getLsbD_eq
  intro i hi
  rw [BitVec.getLsbD_not, Value.getLsbD_pat, Value.getLsbD_pat]
  by_cases h : i < 32
  · simp [Value.notWords, h, hi]
  · have l : i - 32 < 32 := by omega
    simp [Value.notWords, h, hi, l]

/-- Negation is negation of the pattern modulo 2^64. -/
theorem Value.negate_pat (a : Value) : a.negate.pat = -a.pat := by
  have h : Value.one.pat = 1#64 := by decide
  rw [Value.negate, Value.addLimbs_pat, Value.notWords_pat, h, BitVec.neg_eq_not_add]

/-- Subtraction subtracts patterns modulo 2^64. -/
theorem Value.subLimbs_pat (a b : Value) : (a.subLimbs b).pat = a.pat - b.pat := by
  rw [Value.subLimbs, Value.addLimbs_pat, Value.negate_pat, BitVec.sub_eq_add_neg]

/-- One column of the multiplier: what is kept and what is passed on make up the whole. -/
theorem column (k : Nat) : k = k / 2 ^ 16 * 2 ^ 16 + k % 2 ^ 16 := by omega

/-- The limb multiplier multiplies patterns modulo 2^64. -/
theorem Value.mulLimbs_pat (a b : Value) : (a.mulLimbs b).pat = a.pat * b.pat := by
  apply BitVec.eq_of_toNat_eq
  rw [BitVec.toNat_mul, Value.mulLimbs, Value.pat_ofLimbs _
    (Nat.mod_lt _ (by decide)) (Nat.mod_lt _ (by decide)) (Nat.mod_lt _ (by decide)) (Nat.mod_lt _ (by decide)),
    a.pat_limbs, b.pat_limbs]
  generalize a.limb0 = a0, a.limb1 = a1, a.limb2 = a2, a.limb3 = a3
  generalize b.limb0 = b0, b.limb1 = b1, b.limb2 = b2, b.limb3 = b3
  have expand : (a3 * 2 ^ 48 + a2 * 2 ^ 32 + a1 * 2 ^ 16 + a0) * (b3 * 2 ^ 48 + b2 * 2 ^ 32 + b1 * 2 ^ 16 + b0) =
      a0 * b0 + (a0 * b1 + a1 * b0) * 2 ^ 16 + (a0 * b2 + a1 * b1 + a2 * b0) * 2 ^ 32 +
      (a0 * b3 + a1 * b2 + a2 * b1 + a3 * b0) * 2 ^ 48 +
      (a1 * b3 + a2 * b2 + a3 * b1 + (a2 * b3 + a3 * b2) * 2 ^ 16 + a3 * b3 * 2 ^ 32) * 2 ^ 64 := by ring
  rw [expand]
  generalize a0 * b0 = p0, a0 * b1 = p1, a1 * b0 = p2, a0 * b2 = p3, a1 * b1 = p4, a2 * b0 = p5
  generalize a0 * b3 = p6, a1 * b2 = p7, a2 * b1 = p8, a3 * b0 = p9
  generalize a1 * b3 + a2 * b2 + a3 * b1 + (a2 * b3 + a3 * b2) * 2 ^ 16 + a3 * b3 * 2 ^ 32 = top
  omega

namespace Machine

/-- One iteration keeps `n / 2^i = q' * d + r` and `r < d`, where `q'` is the quotient without its low `i` zero bits. -/
theorem udivStep_spec {n d i Q R : Nat} (hd : R < d) (h : n / 2 ^ (i + 1) = Q * d + R) :
    ∃ Q' R', udivStep n d i (Q * 2 ^ (i + 1), R) = (Q' * 2 ^ i, R') ∧ R' < d ∧ n / 2 ^ i = Q' * d + R' := by
  have hb : n / 2 ^ i = 2 * (n / 2 ^ (i + 1)) + (n.testBit i).toNat := by
    rw [Nat.toNat_testBit, Nat.pow_succ, ← Nat.div_div_eq_div_mul]
    omega
  by_cases hc : d ≤ 2 * R + (n.testBit i).toNat
  · refine ⟨2 * Q + 1, 2 * R + (n.testBit i).toNat - d, ?_, ?_, ?_⟩
    · simp only [udivStep, hc, if_true]
      rw [Nat.pow_succ]
      congr 1
      ring
    · have : (n.testBit i).toNat ≤ 1 := by cases n.testBit i <;> decide
      omega
    · rw [hb, h]
      have : (2 * Q + 1) * d = 2 * (Q * d) + d := by ring
      omega
  · refine ⟨2 * Q, 2 * R + (n.testBit i).toNat, ?_, by omega, ?_⟩
    · simp only [udivStep, hc, if_false]
      rw [Nat.pow_succ]
      congr 1
      ring
    · rw [hb, h]
      have : 2 * Q * d = 2 * (Q * d) := by ring
      omega

/-- The loop from quotient bit `k` down leaves the whole quotient and remainder. -/
theorem udivLoop_spec {n d : Nat} (k Q R : Nat) (hd : R < d) (h : n / 2 ^ k = Q * d + R) :
    ∃ q r, udivLoop n d k (Q * 2 ^ k, R) = (q, r) ∧ r < d ∧ n = q * d + r := by
  induction k generalizing Q R with
  | zero => exact ⟨Q, R, by simp [udivLoop], hd, by simpa using h⟩
  | succ k ih =>
    obtain ⟨Q', R', hs, hr, hn⟩ := udivStep_spec hd h
    rw [udivLoop, hs]
    exact ih Q' R' hr hn

/-- R171: `udiv64` is exact for every dividend below 2^64 and every divisor that is not zero. -/
theorem udiv64_spec {n d : Nat} (hn : n < 2 ^ 64) (hd : 0 < d) : udiv64 n d = (n / d, n % d) := by
  obtain ⟨q, r, h, hr, hq⟩ := udivLoop_spec (n := n) 64 0 0 hd (by simpa using Nat.div_eq_of_lt hn)
  rw [Nat.zero_mul] at h
  rw [udiv64, h]
  have hdiv : n / d = q := by
    rw [hq, Nat.mul_comm, Nat.mul_add_div hd, Nat.div_eq_of_lt hr, Nat.add_zero]
  have hmod : n % d = r := by
    rw [hq, Nat.mul_comm, Nat.mul_add_mod, Nat.mod_eq_of_lt hr]
  rw [hdiv, hmod]

end Machine
end Sys2Proof
end

