-- ==== Sys2Proof/Laws/PerInstr.lean ====
section
/-! SUPPORT. The per-instruction family `EncodedHeader`: the packet the encoder writes for a command carries the command's
tag in `OP` and zero in `RSV` (30_encoding.md R71, R75), whatever its operands. -/

namespace Sys2Proof

/-- The fields of a `W0` put together from its fields (R71). -/
theorem header_fields (op : BitVec 6) (aUns bUns chain : Bool) :
    (header op aUns bUns chain).extractLsb' 0 6 = op ∧ (header op aUns bUns chain).extractLsb' 9 23 = 0 := by
  revert op aUns bUns chain
  decide

/-- `OP` of a packet put together by the encoder. -/
theorem packetOf_op (op : BitVec 6) (a : Receiver) (l h : Word) (u : Bool) : (packetOf op a l h u).op = op := by
  cases a with
  | res => exact (header_fields op false u true).1
  | lit v => exact (header_fields op v.uns u false).1

/-- `RSV` of a packet put together by the encoder. -/
theorem packetOf_rsv (op : BitVec 6) (a : Receiver) (l h : Word) (u : Bool) : (packetOf op a l h u).rsv = 0 := by
  cases a with
  | res => exact (header_fields op false u true).2
  | lit v => exact (header_fields op v.uns u false).2

namespace Laws.EncodedHeader

/-- The encoded packet has the command's tag, and no reserved bit. -/
def Statement (i : Instr) : Prop := (encode i).op = i.tag ∧ (encode i).rsv = 0

theorem fromBits (a : Receiver) : Statement (.fromBits a) := ⟨packetOf_op .., packetOf_rsv ..⟩
theorem fromInt (a : Receiver) : Statement (.fromInt a) := ⟨packetOf_op .., packetOf_rsv ..⟩
theorem toInt (a : Receiver) : Statement (.toInt a) := ⟨packetOf_op .., packetOf_rsv ..⟩
theorem toUnsigned (a : Receiver) : Statement (.toUnsigned a) := ⟨packetOf_op .., packetOf_rsv ..⟩
theorem toSigned (a : Receiver) : Statement (.toSigned a) := ⟨packetOf_op .., packetOf_rsv ..⟩
theorem fromBytesLE (a : Receiver) : Statement (.fromBytesLE a) := ⟨packetOf_op .., packetOf_rsv ..⟩
theorem fromBytesBE (a : Receiver) : Statement (.fromBytesBE a) := ⟨packetOf_op .., packetOf_rsv ..⟩
theorem toBytesLE (a : Receiver) : Statement (.toBytesLE a) := ⟨packetOf_op .., packetOf_rsv ..⟩
theorem toBytesBE (a : Receiver) : Statement (.toBytesBE a) := ⟨packetOf_op .., packetOf_rsv ..⟩
theorem add (a : Receiver) (b : Value) : Statement (.add a b) := ⟨packetOf_op .., packetOf_rsv ..⟩
theorem neg (a : Receiver) : Statement (.neg a) := ⟨packetOf_op .., packetOf_rsv ..⟩
theorem sub (a : Receiver) (b : Value) : Statement (.sub a b) := ⟨packetOf_op .., packetOf_rsv ..⟩
theorem mul (a : Receiver) (b : Value) : Statement (.mul a b) := ⟨packetOf_op .., packetOf_rsv ..⟩
theorem div (a : Receiver) (b : Value) : Statement (.div a b) := ⟨packetOf_op .., packetOf_rsv ..⟩
theorem mod (a : Receiver) (b : Value) : Statement (.mod a b) := ⟨packetOf_op .., packetOf_rsv ..⟩
theorem and (a : Receiver) (b : Value) : Statement (.and a b) := ⟨packetOf_op .., packetOf_rsv ..⟩
theorem or (a : Receiver) (b : Value) : Statement (.or a b) := ⟨packetOf_op .., packetOf_rsv ..⟩
theorem xor (a : Receiver) (b : Value) : Statement (.xor a b) := ⟨packetOf_op .., packetOf_rsv ..⟩
theorem not (a : Receiver) : Statement (.not a) := ⟨packetOf_op .., packetOf_rsv ..⟩
theorem clz (a : Receiver) : Statement (.clz a) := ⟨packetOf_op .., packetOf_rsv ..⟩
theorem ctz (a : Receiver) : Statement (.ctz a) := ⟨packetOf_op .., packetOf_rsv ..⟩
theorem shl (a : Receiver) (n : Nat) : Statement (.shl a n) := ⟨packetOf_op .., packetOf_rsv ..⟩
theorem shr (a : Receiver) (n : Nat) : Statement (.shr a n) := ⟨packetOf_op .., packetOf_rsv ..⟩
theorem shru (a : Receiver) (n : Nat) : Statement (.shru a n) := ⟨packetOf_op .., packetOf_rsv ..⟩
theorem rotl (a : Receiver) (n : Nat) : Statement (.rotl a n) := ⟨packetOf_op .., packetOf_rsv ..⟩
theorem rotr (a : Receiver) (n : Nat) : Statement (.rotr a n) := ⟨packetOf_op .., packetOf_rsv ..⟩
theorem eq (a : Receiver) (b : Value) : Statement (.eq a b) := ⟨packetOf_op .., packetOf_rsv ..⟩
theorem cmp (a : Receiver) (b : Value) : Statement (.cmp a b) := ⟨packetOf_op .., packetOf_rsv ..⟩
theorem toStr (a : Receiver) (n : Nat) : Statement (.toStr a n) := ⟨packetOf_op .., packetOf_rsv ..⟩
theorem clrErr : Statement .clrErr := ⟨by decide, by decide⟩

end Laws.EncodedHeader

end Sys2Proof
end

