-- ==== Sys2Proof/Laws/Decode.lean ====
section
/-! SUPPORT. What the decoder and the encoder do with the fields of a packet. -/

namespace Sys2Proof

/-- The flag bits of a `W0` put together from its fields (R71). -/
theorem header_flags (op : BitVec 6) (aUns bUns chain : Bool) :
    (header op aUns bUns chain).getLsbD 6 = aUns ∧ (header op aUns bUns chain).getLsbD 7 = bUns ∧
    (header op aUns bUns chain).getLsbD 8 = chain := by
  revert op aUns bUns chain
  decide

/-- The A slot of a packet put together by the encoder. -/
theorem packetOf_receiver (op : BitVec 6) (a : Receiver) (l h : Word) (u : Bool) :
    (packetOf op a l h u).receiver = a := by
  cases a with
  | res =>
    have f := (header_flags op false u true).2.2
    simp only [packetOf, Packet.receiver, Packet.chain, f]
  | lit v =>
    obtain ⟨f, -, g⟩ := header_flags op v.uns u false
    simp only [packetOf, Packet.receiver, Packet.chain, Packet.aUns, f, g]

/-- The B slot of a packet put together by the encoder. -/
theorem packetOf_other (op : BitVec 6) (a : Receiver) (l h : Word) (u : Bool) :
    (packetOf op a l h u).other = ⟨l, h, u⟩ := by
  cases a with
  | res =>
    have f := (header_flags op false u true).2.1
    simp only [packetOf, Packet.other, Packet.bUns, f]
  | lit v =>
    have f := (header_flags op v.uns u false).2.1
    simp only [packetOf, Packet.other, Packet.bUns, f]

/-- `B_LOW` of a packet put together by the encoder. -/
theorem packetOf_w3 (op : BitVec 6) (a : Receiver) (l h : Word) (u : Bool) : (packetOf op a l h u).w3 = l := by
  cases a <;> rfl

/-- What the tag map can answer: a command with the packet's tag, which is assigned. -/
theorem decodeTag_ok {p : Packet} {i : Instr} (h : decodeTag p = .ok i) :
    i.tag = p.op ∧ i.wellFormed = true ∧ p.op ∈ Machine.assignedTags := by
  unfold decodeTag at h
  have hp : p.plain < 2 ^ 32 := p.w3.isLt
  have hc : ∀ k, p.op.toNat = k → p.op = BitVec.ofNat 6 k := fun k hk => by
    rw [← hk, BitVec.ofNat_toNat, BitVec.setWidth_eq]
  split at h
  all_goals first
    | (cases h; rename_i hk; simp [hc _ hk, Instr.tag, Instr.wellFormed, fitsField, Machine.assignedTags]; try exact hp)
    | cases h

end Sys2Proof
end

