-- ==== Sys2Proof/Laws/Digits.lean ====
section
/-! SUPPORT. What the digit pipeline computes: the digits of a magnitude in its radix, and their places in `DIG`. -/

namespace Sys2Proof.Machine

/-- The loop puts the base-`r` digits of `m`, most significant first, in front of what it has. -/
theorem digitLoop_spec {r : Nat} (hr : 2 ≤ r) (fuel m : Nat) (acc : List Nat) (hm : 0 < m) (hb : m < 2 ^ 64)
    (hf : m < r ^ fuel) : digitLoop r fuel m acc = (Nat.digits r m).reverse ++ acc := by
  induction fuel generalizing m acc with
  | zero => simp at hf; omega
  | succ k ih =>
    have hd : Nat.digits r m = m % r :: Nat.digits r (m / r) := Nat.digits_def' (by omega) hm
    simp only [digitLoop, udiv64_spec hb (by omega : 0 < r)]
    by_cases hq : m / r = 0
    · rw [if_pos hq, hd, hq]
      simp
    · rw [if_neg hq, hd, ih (m / r) _ (Nat.pos_of_ne_zero hq) (lt_of_le_of_lt (Nat.div_le_self m r) hb)]
      · simp
      · rw [Nat.div_lt_iff_lt_mul (by omega)]
        rwa [Nat.pow_succ] at hf

/-- The digits of a magnitude that is not zero. -/
theorem digitsOf_pos {m r : Nat} (hr : 2 ≤ r) (hm : 0 < m) (hb : m < 2 ^ 64) :
    digitsOf m r = (Nat.digits r m).reverse := by
  have h : m < r ^ 64 := lt_of_lt_of_le hb (Nat.pow_le_pow_left hr 64)
  rw [digitsOf, digitLoop_spec hr 64 m [] hm hb h, List.append_nil]

/-- Zero has the one digit 0. -/
theorem digitsOf_zero {r : Nat} (hr : 2 ≤ r) : digitsOf 0 r = [0] := by
  simp only [digitsOf, digitLoop, udiv64_spec (by decide : 0 < 2 ^ 64) (by omega : 0 < r)]
  simp

/-- A place of a padded list. -/
theorem padTo_getElem (z : Digit) (n : Nat) (ds : List Digit) (i : Nat) (h : i < (padTo z n ds).length) :
    (padTo z n ds)[i] = (ds[i]?).getD z := by
  induction n generalizing ds i with
  | zero => simp [padTo] at h
  | succ n ih =>
    cases ds with
    | nil => cases i with
      | zero => rfl
      | succ i => simpa [padTo] using ih [] i (by simpa [padTo] using h)
    | cons d ds => cases i with
      | zero => rfl
      | succ i => simpa [padTo] using ih ds i (by simpa [padTo] using h)

/-- A digit place of `DIG`: the digit there, or 0 beyond the last one. -/
theorem DigitString.ofDigits_digit (neg : Bool) (ds : List Nat) (i : Fin 64) :
    (DigitString.ofDigits neg ds).digits[i] = ((ds.map (BitVec.ofNat 6))[i.val]?).getD 0 :=
  padTo_getElem 0 64 _ i.val _

end Sys2Proof.Machine
end

