-- ==== Sys2Proof/Laws/State.lean ====
section
/-! SUPPORT. One lemma per field per update of the state, and the frame `perform` in its two cases. -/

namespace Sys2Proof.Machine

section writeRes
variable (s : State) (v : Value)
@[simp] theorem State.writeRes_res : (s.writeRes v).res = v := rfl
@[simp] theorem State.writeRes_aux : (s.writeRes v).aux = s.aux := rfl
@[simp] theorem State.writeRes_byt : (s.writeRes v).byt = s.byt := rfl
@[simp] theorem State.writeRes_dig : (s.writeRes v).dig = s.dig := rfl
@[simp] theorem State.writeRes_err : (s.writeRes v).err = s.err := rfl
@[simp] theorem State.writeRes_input : (s.writeRes v).input = s.input := rfl
@[simp] theorem State.writeRes_cfg : (s.writeRes v).cfg = s.cfg := rfl
end writeRes

section writeAux
variable (s : State) (w : Word)
@[simp] theorem State.writeAux_res : (s.writeAux w).res = s.res := rfl
@[simp] theorem State.writeAux_aux : (s.writeAux w).aux = w := rfl
@[simp] theorem State.writeAux_byt : (s.writeAux w).byt = s.byt := rfl
@[simp] theorem State.writeAux_dig : (s.writeAux w).dig = s.dig := rfl
@[simp] theorem State.writeAux_err : (s.writeAux w).err = s.err := rfl
@[simp] theorem State.writeAux_input : (s.writeAux w).input = s.input := rfl
@[simp] theorem State.writeAux_cfg : (s.writeAux w).cfg = s.cfg := rfl
end writeAux

section writeByt
variable (s : State) (b : Vector Byte 8)
@[simp] theorem State.writeByt_res : (s.writeByt b).res = s.res := rfl
@[simp] theorem State.writeByt_aux : (s.writeByt b).aux = s.aux := rfl
@[simp] theorem State.writeByt_byt : (s.writeByt b).byt = b := rfl
@[simp] theorem State.writeByt_dig : (s.writeByt b).dig = s.dig := rfl
@[simp] theorem State.writeByt_err : (s.writeByt b).err = s.err := rfl
@[simp] theorem State.writeByt_input : (s.writeByt b).input = s.input := rfl
@[simp] theorem State.writeByt_cfg : (s.writeByt b).cfg = s.cfg := rfl
end writeByt

section writeDig
variable (s : State) (d : DigitString)
@[simp] theorem State.writeDig_res : (s.writeDig d).res = s.res := rfl
@[simp] theorem State.writeDig_aux : (s.writeDig d).aux = s.aux := rfl
@[simp] theorem State.writeDig_byt : (s.writeDig d).byt = s.byt := rfl
@[simp] theorem State.writeDig_dig : (s.writeDig d).dig = d := rfl
@[simp] theorem State.writeDig_err : (s.writeDig d).err = s.err := rfl
@[simp] theorem State.writeDig_input : (s.writeDig d).input = s.input := rfl
@[simp] theorem State.writeDig_cfg : (s.writeDig d).cfg = s.cfg := rfl
end writeDig

section raise
variable (s : State) (k : ErrKind)
@[simp] theorem State.raise_res : (s.raise k).res = s.res := rfl
@[simp] theorem State.raise_aux : (s.raise k).aux = s.aux := rfl
@[simp] theorem State.raise_byt : (s.raise k).byt = s.byt := rfl
@[simp] theorem State.raise_dig : (s.raise k).dig = s.dig := rfl
@[simp] theorem State.raise_err : (s.raise k).err = k := rfl
@[simp] theorem State.raise_input : (s.raise k).input = s.input := rfl
@[simp] theorem State.raise_cfg : (s.raise k).cfg = s.cfg := rfl
end raise

section clearErr
variable (s : State)
@[simp] theorem State.clearErr_res : s.clearErr.res = s.res := rfl
@[simp] theorem State.clearErr_aux : s.clearErr.aux = s.aux := rfl
@[simp] theorem State.clearErr_byt : s.clearErr.byt = s.byt := rfl
@[simp] theorem State.clearErr_dig : s.clearErr.dig = s.dig := rfl
@[simp] theorem State.clearErr_err : s.clearErr.err = .none := rfl
@[simp] theorem State.clearErr_input : s.clearErr.input = s.input := rfl
@[simp] theorem State.clearErr_cfg : s.clearErr.cfg = s.cfg := rfl
end clearErr

section applyReset
variable (s : State)
@[simp] theorem State.applyReset_res : s.applyReset.res = State.reset.res := rfl
@[simp] theorem State.applyReset_aux : s.applyReset.aux = State.reset.aux := rfl
@[simp] theorem State.applyReset_byt : s.applyReset.byt = State.reset.byt := rfl
@[simp] theorem State.applyReset_dig : s.applyReset.dig = State.reset.dig := rfl
@[simp] theorem State.applyReset_err : s.applyReset.err = State.reset.err := rfl
@[simp] theorem State.applyReset_input : s.applyReset.input = s.input := rfl
@[simp] theorem State.applyReset_cfg : s.applyReset.cfg = s.cfg := rfl
end applyReset

section deliver
variable (s : State) (e : HostEvent)
@[simp] theorem State.deliver_res : (s.deliver e).res = s.res := rfl
@[simp] theorem State.deliver_aux : (s.deliver e).aux = s.aux := rfl
@[simp] theorem State.deliver_byt : (s.deliver e).byt = s.byt := rfl
@[simp] theorem State.deliver_dig : (s.deliver e).dig = s.dig := rfl
@[simp] theorem State.deliver_err : (s.deliver e).err = s.err := rfl
@[simp] theorem State.deliver_input : (s.deliver e).input = e :: s.input := rfl
@[simp] theorem State.deliver_cfg : (s.deliver e).cfg = s.cfg := rfl
end deliver

section operands
variable (s : State) (v : Value)
@[simp] theorem receiver_res : receiver .res s = s.res := rfl
@[simp] theorem receiver_lit : receiver (.lit v) s = v := rfl
end operands

/-- Taking the event that has just been delivered gives the state before it. -/
@[simp] theorem State.takeEvent_deliver (s : State) (e : HostEvent) : (s.deliver e).takeEvent = some (e, s) := rfl

/-- With no error held the effect happens (R320). -/
theorem perform_ready {s : State} (h : s.err = .none) (f : State → State) : perform s f = .next (f s) := by
  simp [perform, h]

/-- With an error held nothing happens (R331). -/
theorem perform_held {s : State} (h : s.err ≠ .none) (f : State → State) : perform s f = .next s := by
  simp [perform, h]

/-- Everything `perform` can do: it answers the effect with no error held, or the same state with one held. -/
theorem perform_cases {s t : State} {f : State → State} (h : perform s f = .next t) :
    (s.err = .none ∧ t = f s) ∨ (s.err ≠ .none ∧ t = s) := by
  by_cases hs : s.err = .none
  · rw [perform_ready hs] at h
    exact .inl ⟨hs, (Host.Outcome.next.inj h).symm⟩
  · rw [perform_held hs] at h
    exact .inr ⟨hs, (Host.Outcome.next.inj h).symm⟩

end Sys2Proof.Machine
end

