-- ==== Sys2Proof/Laws/Exec.lean ====
section
/-! SUPPORT. Everything one command, one packet and one step can do. Later proofs cite these inversions instead of
unfolding `exec`, `performPacket` and `step`. -/

namespace Sys2Proof.Machine

/-- The outcomes of a command: CLRERR clears the latch; a command is dropped while an error is held; otherwise it writes
its destination, or DIV or MOD raises DivisionByZero, or TOSTR raises InvalidRadix. -/
theorem exec_cases (i : Instr) (s : State) :
    (i = .clrErr ∧ exec i s = .next s.clearErr) ∨
    (i ≠ .clrErr ∧ s.err ≠ .none ∧ exec i s = .next s) ∨
    (i ≠ .clrErr ∧ s.err = .none ∧
      ((destination i = .res ∧ ∃ v, exec i s = .next (s.writeRes v)) ∨
       (destination i = .aux ∧ ∃ w, exec i s = .next (s.writeAux w)) ∨
       (destination i = .byt ∧ ∃ b, exec i s = .next (s.writeByt b)) ∨
       (∃ a r, i = .toStr a r ∧ 2 ≤ r ∧ r ≤ 36 ∧ exec i s = .next (s.writeDig (toDigits (receiver a s) r))) ∨
       (((∃ a b, i = .div a b) ∨ ∃ a b, i = .mod a b) ∧ exec i s = .next (s.raise .divisionByZero)) ∨
       ((∃ a r, i = .toStr a r) ∧ exec i s = .next (s.raise .invalidRadix)))) := by
  by_cases h : s.err = .none
  · cases i with
    | clrErr => exact .inl ⟨rfl, rfl⟩
    | div a b =>
      refine .inr (.inr ⟨by simp, h, ?_⟩)
      simp only [exec, execDiv, perform_ready h]
      split
      · exact .inr (.inr (.inr (.inr (.inl ⟨.inl ⟨a, b, rfl⟩, rfl⟩))))
      · exact .inl ⟨rfl, _, rfl⟩
    | mod a b =>
      refine .inr (.inr ⟨by simp, h, ?_⟩)
      simp only [exec, execMod, perform_ready h]
      split
      · exact .inr (.inr (.inr (.inr (.inl ⟨.inr ⟨a, b, rfl⟩, rfl⟩))))
      · exact .inl ⟨rfl, _, rfl⟩
    | toStr a r =>
      refine .inr (.inr ⟨by simp, h, ?_⟩)
      simp only [exec, execToStr, perform_ready h]
      split
      · rename_i hr
        simp only [radixLegal, Bool.and_eq_true, decide_eq_true_eq] at hr
        exact .inr (.inr (.inr (.inl ⟨a, r, rfl, hr.1, hr.2, rfl⟩)))
      · exact .inr (.inr (.inr (.inr (.inr ⟨⟨a, r, rfl⟩, rfl⟩))))
    | _ =>
      refine .inr (.inr ⟨by simp, h, ?_⟩)
      unfold exec
      first
        | exact .inl ⟨rfl, _, perform_ready h _⟩
        | exact .inr (.inl ⟨rfl, _, perform_ready h _⟩)
        | exact .inr (.inr (.inl ⟨rfl, _, perform_ready h _⟩))
  · by_cases hc : i = .clrErr
    · exact .inl ⟨hc, by rw [hc]; rfl⟩
    · refine .inr (.inl ⟨hc, h, ?_⟩)
      cases i <;> unfold exec <;> first | exact perform_held h _ | exact absurd rfl hc

/-- A packet is performed as its command, or as an illegal packet (R320). -/
theorem performPacket_cases (p : Packet) (s : State) :
    (∃ i, decode p = .ok i ∧ performPacket p s = exec i s) ∨
    ((∃ e, decode p = .error e) ∧ performPacket p s = performIllegal s) := by
  unfold performPacket
  split
  · exact .inl ⟨_, ‹_›, rfl⟩
  · exact .inr ⟨⟨_, ‹_›⟩, rfl⟩

/-- A step stays where nothing is delivered, resets, or performs the packet at the head of the deliveries. -/
theorem step_cases (s : State) :
    (s.input = [] ∧ step s = .next s) ∨
    (∃ rest, s.input = .reset :: rest ∧ step s = .next (State.applyReset { s with input := rest })) ∨
    (∃ p rest, s.input = .command p :: rest ∧ step s = performPacket p { s with input := rest }) := by
  unfold step State.takeEvent
  rcases h : s.input with _ | ⟨e | _, rest⟩
  · exact .inl ⟨rfl, rfl⟩
  · exact .inr (.inr ⟨_, rest, rfl, rfl⟩)
  · exact .inr (.inl ⟨rest, rfl, rfl⟩)

end Sys2Proof.Machine
end

