-- ==== Sys2Proof/Laws/HostSide.lean ====
section
/-! SUPPORT. The words of an integer, and the host-side conversion of numbers by the block's commands (R286, R287)
and of texts (R294, R296). -/

namespace Sys2Proof

/-- The low word of `val(n, u)` is `n` modulo 2^32. -/
theorem Value.val_low (n : Int) (u : Bool) : (Value.val n u).low = BitVec.ofInt 32 n := by
  apply BitVec.eq_of_toNat_eq
  simp only [Value.val, Value.ofPat, BitVec.extractLsb'_toNat, BitVec.toNat_ofInt, Nat.shiftRight_zero]
  omega

/-- The high word of `val(n, u)` is `floor(n / 2^32)` modulo 2^32. -/
theorem Value.val_high (n : Int) (u : Bool) : (Value.val n u).high = BitVec.ofInt 32 (n / 2 ^ 32) := by
  apply BitVec.eq_of_toNat_eq
  simp only [Value.val, Value.ofPat, BitVec.extractLsb'_toNat, BitVec.toNat_ofInt, Nat.shiftRight_eq_div_pow]
  omega

namespace Machine

/-- The host's split into words (R286) is `val` (R10). -/
theorem splitWords_eq_val (n : Int) (u : Bool) : splitWords n u = Value.val n u := by
  have low : BitVec.ofInt 32 (n % 2 ^ 32) = BitVec.ofInt 32 n := by
    apply BitVec.eq_of_toNat_eq
    simp only [BitVec.toNat_ofInt]
    omega
  rw [splitWords, low, ← Value.val_low n u, ← Value.val_high n u]
  rfl

/-- The pattern of `val(n, u)` as a number (R10). -/
theorem val_pat_toNat (n : Int) (u : Bool) : ((Value.val n u).pat.toNat : Int) = n % 2 ^ 64 := by
  rw [Value.val, Value.pat_ofPat, BitVec.toNat_ofInt]
  omega

/-- R287: for an integer in range `fromNumber` gives the Value of that number. -/
theorem fromNumber_num {n : Int} {u : Bool}
    (h : if u then 0 ≤ n ∧ n < 2 ^ 64 else -(2 ^ 63) ≤ n ∧ n < 2 ^ 63) :
    ∃ v, fromNumber (.integer n) u = .ok v ∧ v.num = n ∧ v.uns = u := by
  cases u with
  | true =>
    simp only [if_true] at h
    refine ⟨splitWords n true, ?_, ?_, rfl⟩
    · simp only [fromNumber]
      rw [if_neg (by omega), if_neg (by omega)]
    · have p := val_pat_toNat n true
      rw [splitWords_eq_val]
      simp only [Value.num, show (Value.val n true).uns = true from rfl, if_true]
      omega
  | false =>
    simp only [Bool.false_eq_true, if_false] at h
    have signed : ∀ m : Int, -(2 ^ 63) ≤ m → m < 2 ^ 63 → ∀ v : Value, v.uns = false →
        (v.pat.toNat : Int) = m % 2 ^ 64 → v.num = m := by
      intro m h1 h2 v hu hp
      simp only [Value.num, hu, Bool.false_eq_true, if_false]
      split <;> omega
    by_cases hm : n ≤ -(2 ^ 63)
    · refine ⟨.minValue, by simp only [fromNumber]; rw [if_pos hm], ?_, rfl⟩
      rw [show n = -(2 ^ 63) by omega]
      decide
    · by_cases hn : n < 0
      · refine ⟨(splitWords (-n) false).negate, ?_, ?_, rfl⟩
        · simp only [fromNumber]
          rw [if_neg hm, if_neg (by omega), if_pos hn]
        · have p := val_pat_toNat (-n) false
          refine signed n (by omega) (by omega) _ rfl ?_
          rw [Value.negate_pat, splitWords_eq_val, BitVec.toNat_neg]
          omega
      · refine ⟨splitWords n false, ?_, ?_, rfl⟩
        · simp only [fromNumber]
          rw [if_neg hm, if_neg (by omega), if_neg hn]
        · rw [splitWords_eq_val]
          exact signed n (by omega) (by omega) _ rfl (val_pat_toNat n false)

/-- R287: the block's commands for `fromNumber` leave in `RES` the Value that `fromNumber` gives, and change nothing else;
where `fromNumber` gives none, there are no commands. -/
theorem fromNumberCommands_spec (x : HostReal) (u : Bool) (s : State) (hs : s.err = .none) :
    match fromNumber x u with
    | .ok v => ∃ is, fromNumberCommands x u = .ok is ∧ execAll is s = .next { s with res := v }
    | .error e => fromNumberCommands x u = .error e := by
  have one : ∀ v, execAll [.fromBits (.lit v)] s = .next { s with res := v } := by
    intro v
    simp only [execAll, exec, execFromBits, perform_ready hs, receiver_lit]
    rfl
  have plain : ∀ r : Except HostFailure Value, match r with
      | .ok v => ∃ is, r.map (fun v => [Instr.fromBits (.lit v)]) = .ok is ∧ execAll is s = .next { s with res := v }
      | .error e => r.map (fun v => [Instr.fromBits (.lit v)]) = .error e := by
    intro r
    cases r with
    | ok v => exact ⟨_, rfl, one v⟩
    | error e => rfl
  have cases4 : (∃ n, x = .integer n ∧ u = false ∧ -(2 ^ 63) < n ∧ n < 0) ∨
      fromNumberCommands x u = (fromNumber x u).map (fun v => [Instr.fromBits (.lit v)]) := by
    cases x with
    | integer n =>
      cases u with
      | true => exact .inr rfl
      | false =>
        by_cases h : -(2 ^ 63) < n ∧ n < 0
        · exact .inl ⟨n, rfl, rfl, h⟩
        · exact .inr (by simp only [fromNumberCommands]; rw [if_neg h])
    | _ => exact .inr rfl
  rcases cases4 with ⟨n, rfl, rfl, h⟩ | h
  · have e : fromNumber (.integer n) false = .ok (splitWords (-n) false).negate := by
      simp only [fromNumber]
      rw [if_neg (by omega), if_neg (by omega), if_pos h.2]
    rw [e]
    refine ⟨_, by simp only [fromNumberCommands]; rw [if_pos h], ?_⟩
    have hs' : (s.writeRes (splitWords (-n) false)).err = .none := hs
    simp only [execAll, exec, execFromBits, execNeg, perform_ready hs, receiver_lit, perform_ready hs', receiver_res,
      State.writeRes_res]
    rfl
  · rw [h]
    exact plain _

/-- Lists of commands performed one after the other. -/
theorem execAll_append (is js : List Instr) {s t : State} (h : execAll is s = .next t) :
    execAll (is ++ js) s = execAll js t := by
  induction is generalizing s with
  | nil => cases h; rfl
  | cons i is ih =>
    simp only [execAll, List.cons_append] at h ⊢
    split at h
    · rw [ih h]
    · cases h
    · cases h

/-- MUL and ADD for each chunk take `RES` from `v` to what `parseChunks` makes of `v`, and change nothing else. -/
theorem chunkCommands_spec (r fuel : Nat) (ds : List Nat) (s : State) (hs : s.err = .none) :
    execAll (chunkCommands r fuel ds) s = .next { s with res := parseChunks r fuel ds s.res } := by
  induction fuel generalizing ds s with
  | zero => rfl
  | succ k ih =>
    cases ds with
    | nil => rfl
    | cons d ds =>
      have ready : ∀ v, (s.writeRes v).err = .none := fun _ => hs
      simp only [chunkCommands, parseChunks, execAll, exec, execMul, execAdd, perform_ready hs, perform_ready (ready _)]
      exact ih _ _ hs

end Machine
end Sys2Proof
end

