-- ==== Sys2Proof/Laws/Shift.lean ====
section
/-! SUPPORT. What the word-level shifts compute on patterns: each word formula of R210 to R212 equals its 64-bit law (R206),
and a shift keeps the receiver's flag (R207). -/

namespace Sys2Proof

@[simp] theorem Value.shiftLeft_uns (v : Value) (n : Nat) : (v.shiftLeft n).uns = v.uns := by
  unfold Value.shiftLeft
  split_ifs <;> rfl

@[simp] theorem Value.shiftRightZero_uns (v : Value) (n : Nat) : (v.shiftRightZero n).uns = v.uns := by
  unfold Value.shiftRightZero
  split_ifs <;> rfl

@[simp] theorem Value.shiftRightFill_uns (v : Value) (n : Nat) (f : Bool) : (v.shiftRightFill n f).uns = v.uns := by
  unfold Value.shiftRightFill
  split_ifs <;> rfl

/-- SHL on words shifts the pattern left. -/
theorem Value.shiftLeft_pat (v : Value) (n : Nat) : (v.shiftLeft n).pat = v.pat <<< n := by
  apply BitVec.eq_of_getLsbD_eq
  intro i hi
  rw [Value.getLsbD_pat, BitVec.getLsbD_shiftLeft, Value.getLsbD_pat]
  unfold Value.shiftLeft
  split_ifs <;> (try simp [-BitVec.getLsbD_eq_getElem]) <;> grind

/-- SHRU on words shifts the pattern right and fills with zeros. -/
theorem Value.shiftRightZero_pat (v : Value) (n : Nat) : (v.shiftRightZero n).pat = v.pat >>> n := by
  apply BitVec.eq_of_getLsbD_eq
  intro i hi
  rw [Value.getLsbD_pat, BitVec.getLsbD_ushiftRight, Value.getLsbD_pat]
  unfold Value.shiftRightZero
  split_ifs <;> (try simp [-BitVec.getLsbD_eq_getElem]) <;> grind

/-- A bit of the 32-bit right shift that fills with `f`, where `f` is 0 or the word's top bit. -/
theorem fillShift_bit (w : Word) (k : Nat) (f : Bool) (hf : f = true → w.getLsbD 31 = true) (i : Nat) :
    (fillShift w k f).getLsbD i = (decide (i < 32) && (if k + i < 32 then w.getLsbD (k + i) else f)) := by
  cases f <;>
    simp [fillShift, BitVec.getLsbD_sshiftRight, BitVec.msb_eq_getLsbD_last, -BitVec.getLsbD_eq_getElem] <;> grind

/-- A bit of SHR's result: the pattern's bit `n` places up, and the fill bit in the top `n` places. -/
theorem Value.shiftRightFill_bit (v : Value) (n : Nat) (f : Bool) (hf : f = true → v.topBit = true)
    (i : Nat) (hi : i < 64) :
    (v.shiftRightFill n f).pat.getLsbD i = if n + i < 64 then v.pat.getLsbD (n + i) else f := by
  have hf' : f = true → v.high.getLsbD 31 = true := hf
  rw [Value.getLsbD_pat, Value.getLsbD_pat]
  unfold Value.shiftRightFill
  have ones : ∀ k, k < 32 → BitVec.getLsbD (0xFFFFFFFF : Word) k = true := by decide
  split_ifs <;> (try simp [-BitVec.getLsbD_eq_getElem, fillShift_bit _ _ _ hf']) <;> grind

/-- The fill bit is 0 or the receiver's top bit (R212). -/
theorem Value.fillBit_topBit (v : Value) (c : Config) (h : v.fillBit c = true) : v.topBit = true := by
  unfold Value.fillBit at h
  split at h <;> first | exact h | cases h

/-- OR on words is OR on the pattern. -/
theorem Value.orWords_pat (a b : Value) : (a.orWords b).pat = a.pat ||| b.pat := by
  apply BitVec.eq_of_getLsbD_eq
  intro i hi
  rw [BitVec.getLsbD_or, Value.getLsbD_pat, Value.getLsbD_pat, Value.getLsbD_pat]
  split_ifs <;> simp only [Value.orWords, BitVec.getLsbD_or]

end Sys2Proof
end

