-- ==== Sys2Proof/Machine/Assembler.lean ====
section
/-! DEFINITION. The assembler's line form (30_encoding.md R90, R91), as an abstract line rather than as text: what a
line assembles to. It is outside the block; it exists "so that examples and programs can be written down" (R90). -/

namespace Sys2Proof.Machine

/-- Every spelling the assembler accepts: the mnemonics of R75, the aliases and the pseudo-commands of R91. -/
inductive Spelling where
  | FROMBITS | FROMINT | TOINT | TOUNSIGNED | TOSIGNED
  | FROMBYTES_LE | FROMBYTES_BE | TOBYTES_LE | TOBYTES_BE
  | ADD | NEG | SUB | MUL | DIV | MOD
  | AND | OR | XOR | NOT | CLZ | CTZ
  | SHL | SHR | SHRU | ROTL | ROTR
  | EQ | CMP | TOSTR | CLRERR
  | SUBTRACT | MULTIPLY | DIVIDE | MODULO | NEGATE | EQUALS | COMPARE
  | MOV | FROMBYTES | TOBYTES
deriving DecidableEq, Repr

/-- One operand of a line (R90). -/
inductive AsmOperand where
  /-- No operand stands there. -/
  | absent
  /-- The word `RES`, for the first operand. -/
  | res
  /-- `s:` or `u:` with a hexadecimal pattern, a decimal integer or a named constant: the integer modulo 2^64. -/
  | value (p : Int) (u : Bool)
  /-- `#n`, a plain integer for `B_LOW`. -/
  | plain (n : Int)
  /-- `s:#n` or `u:#n`, FROMINT's integer for `A_LOW`. -/
  | native (n : Int) (u : Bool)
  /-- `s:[b0 .. b7]` or `u:[b0 .. b7]`, byte 0 first (R271). -/
  | bytes (b : Vector Byte 8) (u : Bool)
deriving DecidableEq, Repr

/-- A first operand that is `RES` or a Value literal. -/
def asmReceiver : AsmOperand → Option Receiver
  | .res => some .res
  | .value p u => some (.lit (.val p u))
  | _ => none

/-- FROMINT's first operand: `RES` or a native integer, with `A_HIGH = 0`. DESIGN CHOICE (log entry 16): an
integer that does not fit 32 bits is kept modulo 2^32. -/
def asmNative : AsmOperand → Option Receiver
  | .res => some .res
  | .native n u => some (.lit { low := BitVec.ofInt 32 n, high := 0, uns := u })
  | _ => none

/-- FROMBYTES's first operand: `RES`, or eight bytes placed in the lanes of R271. -/
def asmBytes : AsmOperand → Option Receiver
  | .res => some .res
  | .bytes b u => some (.lit (.ofBytesLE b u))
  | _ => none

/-- A second operand that is a Value literal. -/
def asmOther : AsmOperand → Option Value
  | .value p u => some (.val p u)
  | _ => none

/-- One operand and nothing after it. DESIGN CHOICE (log entry 11): a Value literal fills all of `A_LOW`, `A_HIGH` and `A_UNS`,
also where the command ignores one of them (TOINT reads `A_LOW` only). -/
def asmOne (f : Receiver → Instr) (a : Option Receiver) (b : AsmOperand) : Option Packet :=
  match a, b with
  | some a, .absent => some (encode (f a))
  | _, _ => none

/-- A receiver and a Value; `B_UNS` follows the literal for every command (log entry 11). -/
def asmTwo (f : Receiver → Value → Instr) (a b : AsmOperand) : Option Packet :=
  match asmReceiver a, asmOther b with
  | some a, some b => some (encode (f a b))
  | _, _ => none

/-- A packet with all three B fields taken from a Value literal. DESIGN CHOICE (log entry 11): `B_HIGH` and `B_UNS` are filled
also where the command reads `B_LOW` only. -/
def withOther (p : Packet) (b : Value) : Packet :=
  { p with w0 := header p.op p.aUns b.uns p.chain, w3 := b.low, w4 := b.high }

/-- A receiver and a count or radix: `#n` (two's complement in `B_LOW` if negative), or a Value literal, which
fills `B_HIGH` and `B_UNS` too although the command ignores them (DESIGN CHOICE, log entry 11). DESIGN CHOICE (log
entry 16): an integer that does not fit 32 bits is kept modulo 2^32. -/
def asmPlain (f : Receiver → Nat → Instr) (a b : AsmOperand) : Option Packet :=
  match asmReceiver a, b with
  | some a, .plain n => some (encode (f a (BitVec.ofInt 32 n).toNat))
  | some a, .value p u => some (withOther (encode (f a 0)) (.val p u))
  | _, _ => none

/-- What a line assembles to (R90, R91): none when the operands do not fit the command. DESIGN CHOICE (log entry 11): a
Value literal sets all three fields of its slot, its `_UNS` bit and its high word included, also where the command ignores
them, as the worked encodings of R92 and the packets of 95_test_vectors.md do. -/
def assemble (m : Spelling) (a b : AsmOperand) : Option Packet :=
  match m with
  | .FROMBITS | .MOV => asmOne .fromBits (asmReceiver a) b
  | .FROMINT => asmOne .fromInt (asmNative a) b
  | .TOINT => asmOne .toInt (asmReceiver a) b
  | .TOUNSIGNED => asmOne .toUnsigned (asmReceiver a) b
  | .TOSIGNED => asmOne .toSigned (asmReceiver a) b
  | .FROMBYTES_LE => asmOne .fromBytesLE (asmBytes a) b
  | .FROMBYTES_BE => asmOne .fromBytesBE (asmBytes a) b
  | .TOBYTES_LE => asmOne .toBytesLE (asmReceiver a) b
  | .TOBYTES_BE => asmOne .toBytesBE (asmReceiver a) b
  | .ADD => asmTwo .add a b
  | .NEG | .NEGATE => asmOne .neg (asmReceiver a) b
  | .SUB | .SUBTRACT => asmTwo .sub a b
  | .MUL | .MULTIPLY => asmTwo .mul a b
  | .DIV | .DIVIDE => asmTwo .div a b
  | .MOD | .MODULO => asmTwo .mod a b
  | .AND => asmTwo .and a b
  | .OR => asmTwo .or a b
  | .XOR => asmTwo .xor a b
  | .NOT => asmOne .not (asmReceiver a) b
  | .CLZ => asmOne .clz (asmReceiver a) b
  | .CTZ => asmOne .ctz (asmReceiver a) b
  | .SHL => asmPlain .shl a b
  | .SHR => asmPlain .shr a b
  | .SHRU => asmPlain .shru a b
  | .ROTL => asmPlain .rotl a b
  | .ROTR => asmPlain .rotr a b
  | .EQ | .EQUALS => asmTwo .eq a b
  | .CMP | .COMPARE => asmTwo .cmp a b
  | .TOSTR => match b with
    | .absent => asmPlain .toStr a (.plain 10)
    | b => asmPlain .toStr a b
  | .CLRERR => match a, b with
    | .absent, .absent => some (encode .clrErr)
    | _, _ => none
  | .FROMBYTES => match b with
    | .plain 1 => asmOne .fromBytesLE (asmBytes a) .absent
    | .plain 0 => asmOne .fromBytesBE (asmBytes a) .absent
    | _ => none
  | .TOBYTES => match b with
    | .plain 1 => asmOne .toBytesLE (asmReceiver a) .absent
    | .plain 0 => asmOne .toBytesBE (asmReceiver a) .absent
    | _ => none

end Sys2Proof.Machine
end

