-- ==== Sys2Proof/Machine/AssemblerText.lean ====
section
/-! DEFINITION. Reading one line of the assembler's text form (30_encoding.md R90, R91) into the abstract line of
Machine/Assembler.lean. It is outside the block; a line that R90 does not allow assembles to nothing. DESIGN CHOICE (log
entry 16): what R90 leaves open of the spelling of a line. -/

namespace Sys2Proof.Machine

/-- The spellings of R75 and R91, upper case. -/
def spellings : List (String × Spelling) :=
  [("FROMBITS", .FROMBITS), ("FROMINT", .FROMINT), ("TOINT", .TOINT), ("TOUNSIGNED", .TOUNSIGNED),
   ("TOSIGNED", .TOSIGNED), ("FROMBYTES_LE", .FROMBYTES_LE), ("FROMBYTES_BE", .FROMBYTES_BE),
   ("TOBYTES_LE", .TOBYTES_LE), ("TOBYTES_BE", .TOBYTES_BE), ("ADD", .ADD), ("NEG", .NEG), ("SUB", .SUB),
   ("MUL", .MUL), ("DIV", .DIV), ("MOD", .MOD), ("AND", .AND), ("OR", .OR), ("XOR", .XOR), ("NOT", .NOT)] ++
  [("CLZ", .CLZ), ("CTZ", .CTZ), ("SHL", .SHL), ("SHR", .SHR), ("SHRU", .SHRU), ("ROTL", .ROTL), ("ROTR", .ROTR),
   ("EQ", .EQ), ("CMP", .CMP), ("TOSTR", .TOSTR), ("CLRERR", .CLRERR), ("SUBTRACT", .SUBTRACT),
   ("MULTIPLY", .MULTIPLY), ("DIVIDE", .DIVIDE), ("MODULO", .MODULO), ("NEGATE", .NEGATE), ("EQUALS", .EQUALS),
   ("COMPARE", .COMPARE), ("MOV", .MOV), ("FROMBYTES", .FROMBYTES), ("TOBYTES", .TOBYTES)]

/-- The names of R22, accepted as Value literals (R90). -/
def constantNames : List (String × Value) :=
  [("ZERO", .zero), ("ONE", .one), ("NEG_ONE", .negOne), ("MIN_VALUE", .minValue), ("MAX_VALUE", .maxValue),
   ("UZERO", .uzero), ("UONE", .uone), ("MAX_UNSIGNED_VALUE", .maxUnsigned)]

/-- The entry of a name, none when it is not in the table. -/
def lookupName {α : Type} (t : List Char) : List (String × α) → Option α
  | [] => none
  | (name, x) :: rest => if name.toList = t then some x else lookupName t rest

/-- The pieces of a text between separators. -/
def pieces (sep : Char) : List Char → List (List Char)
  | [] => [[]]
  | c :: cs =>
    match pieces sep cs with
    | [] => [[c]]
    | p :: ps => if c = sep then [] :: p :: ps else (c :: p) :: ps

/-- A text without the spaces around it. -/
def trimSpaces (t : List Char) : List Char :=
  ((t.dropWhile (· == ' ')).reverse.dropWhile (· == ' ')).reverse

/-- A number of at least one digit of the radix. -/
def readNat (r : Nat) (t : List Char) : Option Nat :=
  if t = [] then none else (digitValues r t).map (digitsNumber r)

/-- A decimal integer, a leading `-` allowed. -/
def readInt : List Char → Option Int
  | '-' :: t => (readNat 10 t).map (fun n => -(n : Int))
  | t => (readNat 10 t).map (fun n => (n : Int))

/-- A hexadecimal pattern: up to 16 digits, with `_` allowed as a separator (R90). DESIGN CHOICE (log entry 16): digits in
either letter case, and a `_` at any place. -/
def readPattern (t : List Char) : Option Nat :=
  let ds := t.filter (· != '_')
  if ds.length ≤ 16 then readNat 16 ds else none

/-- One byte in hexadecimal. DESIGN CHOICE (log entry 16): exactly two digits. -/
def readByte (t : List Char) : Option Byte :=
  if t.length = 2 then (readNat 16 t).map (BitVec.ofNat 8) else none

/-- Exactly eight bytes, byte 0 first, one space between two. -/
def readBytes (t : List Char) : Option (Vector Byte 8) :=
  match (pieces ' ' t).map readByte with
  | [some b0, some b1, some b2, some b3, some b4, some b5, some b6, some b7] => some #v[b0, b1, b2, b3, b4, b5, b6, b7]
  | _ => none

/-- What stands after `s:` or `u:` (R90): an integer for FROMINT, eight bytes, a hexadecimal pattern, or a decimal integer,
negative allowed after `s:`. -/
def readTyped (u : Bool) : List Char → Option AsmOperand
  | '#' :: t => (readInt t).map (fun n => .native n u)
  | '[' :: t =>
    match t.reverse with
    | ']' :: b => (readBytes b.reverse).map (fun v => .bytes v u)
    | _ => none
  | '0' :: 'x' :: t => (readPattern t).map (fun p => .value p u)
  | '-' :: t => if u then none else (readNat 10 t).map (fun n => .value (-(n : Int)) false)
  | t => (readNat 10 t).map (fun n => .value n u)

/-- One operand of a line. -/
def readOperand (t : List Char) : Option AsmOperand :=
  match t with
  | ['R', 'E', 'S'] => some .res
  | '#' :: t => (readInt t).map .plain
  | 's' :: ':' :: t => readTyped false t
  | 'u' :: ':' :: t => readTyped true t
  | t => (lookupName t constantNames).map (fun v => .value v.num v.uns)

/-- A line's spelling and operands: `MNEMONIC`, `MNEMONIC a` or `MNEMONIC a, b` (R90). DESIGN CHOICE (log entry 16): spaces
around the line and its operands are skipped. -/
def readLine (line : List Char) : Option (Spelling × AsmOperand × AsmOperand) :=
  let t := trimSpaces line
  match lookupName (t.takeWhile (· != ' ')) spellings, trimSpaces (t.dropWhile (· != ' ')) with
  | none, _ => none
  | some m, [] => some (m, .absent, .absent)
  | some m, ops =>
    match (pieces ',' ops).map (fun o => readOperand (trimSpaces o)) with
    | [some a] => some (m, a, .absent)
    | [some a, some b] => some (m, a, b)
    | _ => none

/-- The packet of a line of text (R90, R91). -/
def assembleText (line : String) : Option Packet :=
  match readLine line.toList with
  | some (m, a, b) => assemble m a b
  | none => none

end Sys2Proof.Machine
end

