-- ==== Sys2Proof/Tests/Slice0.lean ====
section
/-! SUPPORT. The model's own tests: ill-formed commands are refused, words written out from the encoding of R71 and R75
decode to their commands, single steps give the spec's examples (the rule's "Example" or 95_test_vectors.md), and for every
obligation with hypotheses a witness that meets them. Every expected result is the spec's. -/

namespace Sys2Proof.Tests
open Sys2Proof.Machine

/-- A state with no error held and something in every register. -/
def ready : State :=
  { State.reset with res := ⟨0x0000002A, 0, false⟩, aux := 7, dig := toDigits ⟨5, 0, true⟩ 10 }

/-- The same with an error held. -/
def held : State := { ready with err := .divisionByZero }

/-- The same in an instance whose `ASR_UNSIGNED_FILL` is `zero`. -/
def zeroFill : State := { ready with cfg := ⟨.zero⟩ }

/-- A receiver from a 64-bit pattern: signed, unsigned. -/
def sa (p : Pattern) : Receiver := .lit (.ofPat p false)
def ua (p : Pattern) : Receiver := .lit (.ofPat p true)
def sv (p : Pattern) : Value := .ofPat p false
def uv (p : Pattern) : Value := .ofPat p true

/-- One field of the next state. -/
def nextField {α : Type} (f : State → α) (r : Result) : Option α :=
  match r with
  | .next t => some (f t)
  | .fault _ => none
  | .refused _ => none

/-! ### WellFormed refuses what a packet cannot hold -/

theorem test_illFormed_shl : (Instr.shl .res 4294967296).wellFormed = false := by decide
theorem test_illFormed_shr : (Instr.shr .res 4294967296).wellFormed = false := by decide
theorem test_illFormed_shru : (Instr.shru .res 4294967296).wellFormed = false := by decide
theorem test_illFormed_rotl : (Instr.rotl .res 4294967296).wellFormed = false := by decide
theorem test_illFormed_rotr : (Instr.rotr .res 4294967296).wellFormed = false := by decide
theorem test_illFormed_toStr : (Instr.toStr .res 4294967296).wellFormed = false := by decide
theorem test_wellFormed_widest : (Instr.shl .res 4294967295).wellFormed = true := by decide

/-! ### Words written out from R71 and R75 -/

theorem test_decode_fromBits : decode ⟨0x00000040, 0xA1A2A3A4, 0xB1B2B3B4, 0, 0⟩ =
    .ok (.fromBits (.lit ⟨0xA1A2A3A4, 0xB1B2B3B4, true⟩)) := by
  decide
theorem test_decode_fromInt : decode ⟨0x00000001, 0xA1A2A3A4, 0xB1B2B3B4, 0, 0⟩ =
    .ok (.fromInt (.lit ⟨0xA1A2A3A4, 0xB1B2B3B4, false⟩)) := by
  decide
theorem test_decode_toInt : decode ⟨0x00000102, 0, 0, 0, 0⟩ = .ok (.toInt .res) := by decide
theorem test_decode_toUnsigned : decode ⟨0x00000043, 0xA1A2A3A4, 0xB1B2B3B4, 0, 0⟩ =
    .ok (.toUnsigned (.lit ⟨0xA1A2A3A4, 0xB1B2B3B4, true⟩)) := by
  decide
theorem test_decode_toSigned : decode ⟨0x00000004, 0xA1A2A3A4, 0xB1B2B3B4, 0, 0⟩ =
    .ok (.toSigned (.lit ⟨0xA1A2A3A4, 0xB1B2B3B4, false⟩)) := by
  decide
theorem test_decode_fromBytesLE : decode ⟨0x00000108, 0, 0, 0, 0⟩ = .ok (.fromBytesLE .res) := by decide
theorem test_decode_fromBytesBE : decode ⟨0x00000049, 0xA1A2A3A4, 0xB1B2B3B4, 0, 0⟩ =
    .ok (.fromBytesBE (.lit ⟨0xA1A2A3A4, 0xB1B2B3B4, true⟩)) := by
  decide
theorem test_decode_toBytesLE : decode ⟨0x0000000A, 0xA1A2A3A4, 0xB1B2B3B4, 0, 0⟩ =
    .ok (.toBytesLE (.lit ⟨0xA1A2A3A4, 0xB1B2B3B4, false⟩)) := by
  decide
theorem test_decode_toBytesBE : decode ⟨0x0000010B, 0, 0, 0, 0⟩ = .ok (.toBytesBE .res) := by decide
theorem test_decode_neg : decode ⟨0x00000051, 0xA1A2A3A4, 0xB1B2B3B4, 0, 0⟩ =
    .ok (.neg (.lit ⟨0xA1A2A3A4, 0xB1B2B3B4, true⟩)) := by
  decide
theorem test_decode_not : decode ⟨0x00000023, 0xA1A2A3A4, 0xB1B2B3B4, 0, 0⟩ =
    .ok (.not (.lit ⟨0xA1A2A3A4, 0xB1B2B3B4, false⟩)) := by
  decide
theorem test_decode_clz : decode ⟨0x00000124, 0, 0, 0, 0⟩ = .ok (.clz .res) := by decide
theorem test_decode_ctz : decode ⟨0x00000065, 0xA1A2A3A4, 0xB1B2B3B4, 0, 0⟩ =
    .ok (.ctz (.lit ⟨0xA1A2A3A4, 0xB1B2B3B4, true⟩)) := by
  decide
theorem test_decode_add : decode ⟨0x00000050, 0xA1A2A3A4, 0xB1B2B3B4, 0xC1C2C3C4, 0xD1D2D3D4⟩ =
    .ok (.add (.lit ⟨0xA1A2A3A4, 0xB1B2B3B4, true⟩) ⟨0xC1C2C3C4, 0xD1D2D3D4, false⟩) := by decide
theorem test_decode_sub : decode ⟨0x00000092, 0xA1A2A3A4, 0xB1B2B3B4, 0xC1C2C3C4, 0xD1D2D3D4⟩ =
    .ok (.sub (.lit ⟨0xA1A2A3A4, 0xB1B2B3B4, false⟩) ⟨0xC1C2C3C4, 0xD1D2D3D4, true⟩) := by decide
theorem test_decode_mul : decode ⟨0x00000193, 0, 0, 0xC1C2C3C4, 0xD1D2D3D4⟩ =
    .ok (.mul .res ⟨0xC1C2C3C4, 0xD1D2D3D4, true⟩) := by decide
theorem test_decode_div : decode ⟨0x00000054, 0xA1A2A3A4, 0xB1B2B3B4, 0xC1C2C3C4, 0xD1D2D3D4⟩ =
    .ok (.div (.lit ⟨0xA1A2A3A4, 0xB1B2B3B4, true⟩) ⟨0xC1C2C3C4, 0xD1D2D3D4, false⟩) := by decide
theorem test_decode_mod : decode ⟨0x00000095, 0xA1A2A3A4, 0xB1B2B3B4, 0xC1C2C3C4, 0xD1D2D3D4⟩ =
    .ok (.mod (.lit ⟨0xA1A2A3A4, 0xB1B2B3B4, false⟩) ⟨0xC1C2C3C4, 0xD1D2D3D4, true⟩) := by decide
theorem test_decode_and : decode ⟨0x000001A0, 0, 0, 0xC1C2C3C4, 0xD1D2D3D4⟩ =
    .ok (.and .res ⟨0xC1C2C3C4, 0xD1D2D3D4, true⟩) := by decide
theorem test_decode_or : decode ⟨0x00000061, 0xA1A2A3A4, 0xB1B2B3B4, 0xC1C2C3C4, 0xD1D2D3D4⟩ =
    .ok (.or (.lit ⟨0xA1A2A3A4, 0xB1B2B3B4, true⟩) ⟨0xC1C2C3C4, 0xD1D2D3D4, false⟩) := by decide
theorem test_decode_xor : decode ⟨0x000000A2, 0xA1A2A3A4, 0xB1B2B3B4, 0xC1C2C3C4, 0xD1D2D3D4⟩ =
    .ok (.xor (.lit ⟨0xA1A2A3A4, 0xB1B2B3B4, false⟩) ⟨0xC1C2C3C4, 0xD1D2D3D4, true⟩) := by decide
theorem test_decode_eq : decode ⟨0x000001B0, 0, 0, 0xC1C2C3C4, 0xD1D2D3D4⟩ =
    .ok (.eq .res ⟨0xC1C2C3C4, 0xD1D2D3D4, true⟩) := by decide
theorem test_decode_cmp : decode ⟨0x00000071, 0xA1A2A3A4, 0xB1B2B3B4, 0xC1C2C3C4, 0xD1D2D3D4⟩ =
    .ok (.cmp (.lit ⟨0xA1A2A3A4, 0xB1B2B3B4, true⟩) ⟨0xC1C2C3C4, 0xD1D2D3D4, false⟩) := by decide
theorem test_decode_shl : decode ⟨0x00000068, 0xA1A2A3A4, 0xB1B2B3B4, 0xFFFFFFFF, 0⟩ =
    .ok (.shl (.lit ⟨0xA1A2A3A4, 0xB1B2B3B4, true⟩) 4294967295) := by decide
theorem test_decode_shr : decode ⟨0x00000129, 0, 0, 0x00000024, 0⟩ = .ok (.shr .res 36) := by decide
theorem test_decode_shru : decode ⟨0x0000006A, 0xA1A2A3A4, 0xB1B2B3B4, 0xFFFFFFFF, 0⟩ =
    .ok (.shru (.lit ⟨0xA1A2A3A4, 0xB1B2B3B4, true⟩) 4294967295) := by decide
theorem test_decode_rotl : decode ⟨0x0000012B, 0, 0, 0x00000024, 0⟩ = .ok (.rotl .res 36) := by decide
theorem test_decode_rotr : decode ⟨0x0000006C, 0xA1A2A3A4, 0xB1B2B3B4, 0xFFFFFFFF, 0⟩ =
    .ok (.rotr (.lit ⟨0xA1A2A3A4, 0xB1B2B3B4, true⟩) 4294967295) := by decide
theorem test_decode_toStr : decode ⟨0x00000138, 0, 0, 0x00000024, 0⟩ = .ok (.toStr .res 36) := by decide
theorem test_decode_clrErr : decode ⟨0x0000003F, 0, 0, 0, 0⟩ = .ok .clrErr := by decide
theorem test_decode_reserved : decode ⟨0x00000210, 7, 0, 2, 0⟩ = .error .reservedBits := by decide
theorem test_decode_topReserved : decode ⟨0x8000003F, 0, 0, 0, 0⟩ = .error .reservedBits := by decide
theorem test_decode_unassigned : decode ⟨0x00000005, 0, 0, 0, 0⟩ = .error (.unassignedTag 5) := by decide
theorem test_tableWord_add : decodeTableWord 32 0x10 = some (.add (.lit .zero) .zero) := by decide
theorem test_tableWord_words : decodeTableWord 160 0x0000000500000004000000030000000200000050 =
    some (.add (.lit ⟨2, 3, true⟩) ⟨4, 5, false⟩) := by decide
theorem test_tableWord_illegal : decodeTableWord 32 0x210 = none := by decide

/-! ### The assembler: the lines of R92, and of R91 with an example of R275 -/

theorem test_asm_add : assembleText "ADD s:7, s:2" = some ⟨0x00000010, 0x00000007, 0, 0x00000002, 0⟩ := by
  decide +kernel
theorem test_asm_sub : assembleText "SUBTRACT RES, u:1" = some ⟨0x00000192, 0, 0, 0x00000001, 0⟩ := by
  decide +kernel
theorem test_asm_shl : assembleText "SHL u:0x1, #64" = some ⟨0x00000068, 0x00000001, 0, 0x00000040, 0⟩ := by
  decide +kernel
theorem test_asm_toStr : assembleText "TOSTR MIN_VALUE" = some ⟨0x00000038, 0, 0x80000000, 0x0000000A, 0⟩ := by
  decide +kernel
theorem test_asm_clrErr : assembleText "CLRERR" = some ⟨0x0000003F, 0, 0, 0, 0⟩ := by decide +kernel
theorem test_asm_fromBytes : assembleText "FROMBYTES s:[01 23 45 67 89 AB CD EF], #0" =
    some ⟨0x00000009, 0x67452301, 0xEFCDAB89, 0, 0⟩ := by decide +kernel

/-- The rule of ignored fields (R90) against the packets of 95_test_vectors.md: the literal's high word is assembled. -/
theorem test_asm_toInt : assembleText "TOINT s:0x00000001_80000000" =
    some ⟨0x00000002, 0x80000000, 0x00000001, 0, 0⟩ := by decide +kernel

/-! ### The host side: R286, R287, R299 -/

theorem test_fromNumber_fractions : fromNumber (.fraction (-3)) true = .ok .uzero ∧
    fromNumber (.fraction (2 ^ 63)) false = .ok .maxValue ∧
    fromNumber (.fraction (-(2 ^ 63) - 1)) false = .ok .minValue := by decide +kernel
theorem test_fromNumberCommands : fromNumberCommands (.integer (-7)) false =
    .ok [.fromBits (.lit ⟨7, 0, false⟩), .neg .res] ∧
    fromNumberCommands (.integer (-7)) true = .ok [.fromBits (.lit .uzero)] ∧
    fromNumberCommands .posInfinity true = .ok [.fromBits (.lit .maxUnsigned)] := by decide +kernel
theorem test_fromStringCommands : fromStringCommands false ['-', '2', 'a'] true 16 =
    .ok [.fromBits (.lit .uzero), .mul .res (sv 256), .add .res (sv 42), .neg .res] := by decide +kernel
theorem test_coerce : coerceCommand .add .res true (.input (.text ['-', '1'])) (some false) =
    .ok (.add .res .negOne) := by decide +kernel

/-! ### Steps -/

theorem test_fromBits : nextField State.res (exec (.fromBits (ua 0xFFFFFFFFFFFFFFFF)) ready) =
    some .maxUnsigned := by decide
theorem test_fromInt_signed : nextField State.res (exec (.fromInt (sa 0x12345678FFFFFFF9)) ready) =
    some ⟨0xFFFFFFF9, 0xFFFFFFFF, false⟩ := by decide
theorem test_fromInt_unsigned : nextField State.res (exec (.fromInt (ua 0xFFFFFFF9)) ready) =
    some ⟨0xFFFFFFF9, 0, true⟩ := by decide
theorem test_toInt : nextField State.aux (exec (.toInt (sa 0x0000000180000000)) ready) = some 0x80000000 := by decide
theorem test_toUnsigned : nextField State.res (exec (.toUnsigned (.lit .negOne)) ready) = some .maxUnsigned := by decide
theorem test_toSigned : nextField State.res (exec (.toSigned (.lit .maxUnsigned)) ready) = some .negOne := by decide
theorem test_fromBytesLE : nextField State.res (exec (.fromBytesLE (sa 0x0123456789ABCDEF)) ready) =
    some ⟨0x89ABCDEF, 0x01234567, false⟩ := by decide
theorem test_fromBytesBE : nextField State.res (exec (.fromBytesBE (sa 0xEFCDAB8967452301)) ready) =
    some ⟨0x89ABCDEF, 0x01234567, false⟩ := by decide
theorem test_toBytesLE : nextField State.byt (exec (.toBytesLE (sa 0x0123456789ABCDEF)) ready) =
    some #v[0xEF, 0xCD, 0xAB, 0x89, 0x67, 0x45, 0x23, 0x01] := by decide
theorem test_toBytesBE : nextField State.byt (exec (.toBytesBE (sa 0x0123456789ABCDEF)) ready) =
    some #v[0x01, 0x23, 0x45, 0x67, 0x89, 0xAB, 0xCD, 0xEF] := by decide
theorem test_add_carry : nextField State.res (exec (.add (sa 0x00000000FFFFFFFF) (sv 1)) ready) =
    some ⟨0, 1, false⟩ := by decide
theorem test_add_wrap_chained :
    nextField State.res (exec (.add .res (sv 1)) { ready with res := .maxUnsigned }) = some .uzero := by decide
theorem test_neg : nextField State.res (exec (.neg (sa 7)) ready) = some ⟨0xFFFFFFF9, 0xFFFFFFFF, false⟩ := by decide
theorem test_neg_minValue : nextField State.res (exec (.neg (.lit .minValue)) ready) = some .minValue := by decide
theorem test_sub_borrow : nextField State.res (exec (.sub (sa 0x0000000100000000) (sv 1)) ready) =
    some ⟨0xFFFFFFFF, 0, false⟩ := by decide
theorem test_sub_unsigned : nextField State.res (exec (.sub (.lit .uzero) .one) ready) = some .maxUnsigned := by decide
theorem test_mul_signed : nextField State.res (exec (.mul (sa 0xFFFFFFFFFFFFFFF9) (sv 3)) ready) =
    some ⟨0xFFFFFFEB, 0xFFFFFFFF, false⟩ := by decide
theorem test_mul_wrap : nextField State.res (exec (.mul (.lit .maxValue) .maxValue) ready) = some .one := by decide
theorem test_div_truncates : nextField State.res (exec (.div (sa 0xFFFFFFFFFFFFFFF9) (sv 2)) ready) =
    some ⟨0xFFFFFFFD, 0xFFFFFFFF, false⟩ := by decide +kernel
theorem test_div_minValue : nextField State.res (exec (.div (.lit .minValue) .maxUnsigned) ready) =
    some .minValue := by decide +kernel
theorem test_mod_signOfDividend : nextField State.res (exec (.mod (sa 7) (sv 0xFFFFFFFFFFFFFFFE)) ready) =
    some .one := by decide +kernel
theorem test_mod_negative : nextField State.res (exec (.mod (sa 0xFFFFFFFFFFFFFFF9) (sv 2)) ready) =
    some .negOne := by decide +kernel
theorem test_and : nextField State.res (exec (.and (sa 0x123456789ABCDEF0) (sv 0x0000FFFFFFFF0000)) ready) =
    some ⟨0x9ABC0000, 0x00005678, false⟩ := by decide
theorem test_or : nextField State.res (exec (.or (ua 0x000000000000FF00) (sv 0x80000000000000FF)) ready) =
    some ⟨0x0000FFFF, 0x80000000, true⟩ := by decide
theorem test_xor : nextField State.res (exec (.xor (sa 0xFFFFFFFF00000000) (sv 0x0F0F0F0F0F0F0F0F)) ready) =
    some ⟨0x0F0F0F0F, 0xF0F0F0F0, false⟩ := by decide
theorem test_not : nextField State.res (exec (.not (sa 0xFF)) ready) = some ⟨0xFFFFFF00, 0xFFFFFFFF, false⟩ := by decide
theorem test_clz : nextField State.aux (exec (.clz (sa 0x10000)) ready) = some 47 := by decide
theorem test_clz_zero : nextField State.aux (exec (.clz (.lit .zero)) ready) = some 64 := by decide
theorem test_ctz : nextField State.aux (exec (.ctz (sa 0x100000000)) ready) = some 32 := by decide
theorem test_ctz_minValue : nextField State.aux (exec (.ctz (.lit .minValue)) ready) = some 63 := by decide
theorem test_shl : nextField State.res (exec (.shl (sa 0x80000001) 1) ready) =
    some ⟨0x00000002, 0x00000001, false⟩ := by decide
theorem test_shl_64 : nextField State.res (exec (.shl .res 64) ready) = some ⟨0x0000002A, 0, false⟩ := by decide
theorem test_shr_sign : nextField State.res (exec (.shr (ua 0x8000000000000000) 4) ready) =
    some ⟨0, 0xF8000000, true⟩ := by decide
theorem test_shr_zero : nextField State.res (exec (.shr (ua 0x8000000000000000) 4) zeroFill) =
    some ⟨0, 0x08000000, true⟩ := by decide
theorem test_shru : nextField State.res (exec (.shru (.lit .negOne) 60) ready) = some ⟨0xF, 0, false⟩ := by decide
theorem test_rotl : nextField State.res (exec (.rotl (sa 0x8000000000000001) 1) ready) = some ⟨3, 0, false⟩ := by decide
theorem test_rotr : nextField State.res (exec (.rotr (sa 3) 1) ready) = some ⟨1, 0x80000000, false⟩ := by decide
theorem test_eq_topBits : nextField State.aux (exec (.eq (.lit .negOne) .maxUnsigned) ready) = some 0 := by decide
theorem test_eq_flagsDiffer : nextField State.aux (exec (.eq (.lit .one) .uone) ready) = some 1 := by decide
theorem test_cmp_negative : nextField State.aux (exec (.cmp (sa 0xFFFFFFFFFFFFFFF9) (sv 2)) ready) =
    some 0xFFFFFFFF := by decide
theorem test_cmp_unsigned : nextField State.aux (exec (.cmp (ua 0x8000000000000000) (sv 1)) ready) = some 1 := by decide
theorem test_toStr_maxValue : nextField (fun t => render .lower t.dig) (exec (.toStr (.lit .maxValue) 10) ready) =
    some ['9', '2', '2', '3', '3', '7', '2', '0', '3', '6', '8', '5', '4', '7', '7', '5', '8', '0', '7'] := by
  decide +kernel
theorem test_toStr_zeroRadixOne : nextField State.err (exec (.toStr (.lit .zero) 1) ready) =
    some .invalidRadix := by decide
theorem test_clrErr : nextField State.err (exec (.clrErr) held) = some .none := by decide
theorem test_held_drops : nextField id (exec (.add .res .one) held) = some held := by decide +kernel
theorem test_step_illegal : nextField State.err (step (ready.withFetchWord 32 0x210)) =
    some .illegalCommand := by decide
theorem test_step_firstAfterReset : nextField State.res
    (step (State.reset.withFetchWord 160 0x0000000000000002000000000000000700000010)) = some ⟨9, 0, false⟩ := by decide
theorem test_step_reset : nextField State.aux (step { held with input := [.reset] }) = some 0 := by decide

/-! ### Witnesses: hypotheses that are met together -/

/-- A legal packet with CHAIN = 1: `ADD RES, s:2`. -/
def chained : Packet := ⟨0x00000110, 9, 9, 2, 0⟩

/-- The same command with CHAIN = 0, other A fields and another B_UNS. -/
def unchained : Packet := ⟨0x00000090, 0x2A, 0, 2, 0⟩

theorem witness_NumberOfValueAndBack : Value.uns .maxUnsigned = true ∧ Value.uns .minValue = false ∧
    2 ^ 63 ≤ (Value.pat .minValue).toNat ∧
    Value.uns .maxValue = false ∧ (Value.pat .maxValue).toNat < 2 ^ 63 := by decide
theorem witness_DecodeOfEncodeIsTheCommand : (Instr.toStr (.lit .minValue) 4294967295).wellFormed = true := by decide
theorem witness_DecodedCommandIsWellFormed : decode chained = .ok (.add .res ⟨2, 0, false⟩) := by decide
theorem witness_StepRunsTheDecodedCommand : decode unchained =
    .ok (.add (.lit ⟨0x2A, 0, false⟩) ⟨2, 0, true⟩) := by decide
theorem witness_LegalityIsReadFromTheFirstWord : (⟨0x5, 1, 2, 3, 4⟩ : Packet).w0 = (⟨0x5, 0, 0, 0, 0⟩ : Packet).w0 ∧
    ready.err = .none ∧ decode ⟨0x5, 1, 2, 3, 4⟩ = .error (.unassignedTag 5) := by decide
theorem witness_ChainTakesTheReceiverFromRes : decode chained = .ok (.add .res ⟨2, 0, false⟩) ∧ chained.chain = true ∧
    unchained.chain = false := by decide
theorem witness_FieldsACommandDoesNotReadAreIgnored : (∃ i, decode chained = .ok i) ∧ unchained.op = chained.op ∧
    unchained.rsv = chained.rsv ∧ readsAgree chained.op chained unchained ready :=
  ⟨⟨_, rfl⟩, by decide, by decide, by unfold readsAgree; decide⟩
theorem witness_PacketIsPerformedInTheFrame : held.err ≠ .none ∧ decode chained ≠ .ok .clrErr ∧ ready.err = .none ∧
    (∀ i, decode ⟨0x5, 0, 0, 0, 0⟩ ≠ .ok i) ∧ decode ⟨0x3F, 0, 0, 0, 0⟩ = .ok .clrErr ∧
    chained.chain = true ∧ unchained.chain = false ∧ chained.rsv = 0 ∧
    decode chained = .ok (.add .res ⟨2, 0, false⟩) := by
  refine ⟨by decide, by decide, by decide, fun i h => ?_, by decide, by decide, by decide, by decide, by decide⟩
  have e : decode ⟨0x5, 0, 0, 0, 0⟩ = .error (.unassignedTag 5) := by decide
  rw [e] at h
  cases h
theorem witness_HeldErrorDropsEveryOtherPacket : (Instr.fromBits .res) ≠ .clrErr ∧ held.err ≠ .none ∧
    decode ⟨0x23F, 0, 0, 0, 0⟩ ≠ .ok .clrErr := by decide
theorem witness_IllegalPacketRaisesIllegalCommand : ready.err = .none ∧
    (0x80000010#32).extractLsb' 9 23 ≠ 0 ∧ (0x3E#32).extractLsb' 0 6 ∈ unassignedTags := by decide
theorem witness_CommandWritesOnlyItsDestination :
    nextField State.err (exec (.mul .res .one) ready) = some .none ∧ ready.err = .none ∧
    nextField State.err (exec (.mod .res .zero) ready) = some .divisionByZero ∧
    held.err ≠ .none ∧ Instr.mul .res .one ≠ .clrErr ∧ nextField id (exec (.mul .res .one) held) = some held ∧
    nextField id (exec .clrErr held) = some ready := by decide +kernel
theorem witness_AtMostOneRegisterChangesPerPacket : nextField State.res (performPacket chained ready) =
    some ⟨0x2C, 0, false⟩ ∧ ready.res ≠ ⟨0x2C, 0, false⟩ ∧ nextField id (performPacket chained held) = some held := by
  decide +kernel
theorem witness_OnlyThreeKindsAreEverRaised :
    nextField State.err (exec (.toStr .res 37) ready) = some .invalidRadix ∧ ready.err ≠ .invalidRadix ∧
    nextField State.err (exec (.div .res .zero) ready) = some .divisionByZero ∧
    nextField State.err (step { ready with input := [.command ⟨0x5, 0, 0, 0, 0⟩] }) = some .illegalCommand := by decide
theorem witness_ready : ready.err = .none := by decide
theorem witness_EveryStepKeepsTheInvariant : ready.Inv ∧
    nextField State.aux (step { ready with input := [.command ⟨0x124, 0, 0, 0, 0⟩] }) = some 58 :=
  ⟨⟨by unfold DigitString.wf; decide +kernel, by decide, by decide⟩, by decide +kernel⟩
theorem witness_FromBitsCopiesTheReceiver : ready.err = .none := witness_ready
theorem witness_FromIntExtendsTheLowWord : ready.err = .none ∧ (receiver (.lit .negOne) ready).uns = false ∧
    (receiver (.lit .maxUnsigned) ready).uns = true := by decide
theorem witness_ToIntWritesTheLowWord : ready.err = .none := witness_ready
theorem witness_ToUnsignedAndToSignedKeepThePattern : ready.err = .none := witness_ready
theorem witness_RepresentationCommandsRoundTrip : ready.err = .none := witness_ready
theorem witness_AddWrapsThePatternSum : ready.err = .none := witness_ready
theorem witness_NegWrapsThePatternNegation : ready.err = .none := witness_ready
theorem witness_SubWrapsThePatternDifference : ready.err = .none := witness_ready
theorem witness_ArithmeticIsModularOnNumbers : ready.err = .none := witness_ready
theorem witness_AddThenSubAndDoubleNegationReturn : ready.err = .none := witness_ready
theorem witness_MulWrapsThePatternProduct : ready.err = .none := witness_ready
theorem witness_MulByZeroAndByMinValue : ready.err = .none ∧ (Value.zero.low = 0 ∧ Value.zero.high = 0) ∧
    (receiver (.lit .minValue) ready).pat = Value.minValue.pat ∧ (uv 0x8000000000000000).pat = Value.minValue.pat := by decide
theorem witness_ZeroDivisorRaisesDivisionByZero : ready.err = .none ∧ Value.uzero.pat = 0 := by decide
theorem witness_DivTruncatesTowardZero : ready.err = .none ∧ Value.zero.pat = 0 ∧ Value.maxUnsigned.pat ≠ 0 ∧
    (receiver (.lit .maxUnsigned) ready).uns = true ∧ (receiver (.lit .minValue) ready).uns = false := by decide
theorem witness_ModIsTheTruncatedRemainder : ready.err = .none ∧ Value.zero.pat = 0 ∧ Value.one.pat ≠ 0 ∧
    (receiver (.lit .maxUnsigned) ready).uns = true ∧ (receiver (.lit .minValue) ready).uns = false := by decide
theorem witness_QuotientTimesDivisorPlusRemainder : ready.err = .none ∧ Value.negOne.pat ≠ 0 := by decide
theorem witness_BitwiseCommandsActOnTheWords : ready.err = .none := witness_ready
theorem witness_BitwiseCommandsActOnThePattern : ready.err = .none ∧ (receiver (.lit .minValue) ready).uns =
    false := by decide
theorem witness_ClzCountsTheZerosFromTheTop : ready.err = .none ∧
    nextField State.aux (exec (.clz (.lit .one)) ready) = some 63 := by decide
theorem witness_CtzCountsTheZerosFromTheBottom : ready.err = .none ∧
    nextField State.aux (exec (.ctz (.lit .zero)) ready) = some 64 := by decide
theorem witness_ShlMultipliesThePattern : ready.err = .none := witness_ready
theorem witness_ShruDividesThePattern : ready.err = .none := witness_ready
theorem witness_ShrFillsTheTopBits : ready.err = .none ∧ (receiver .res ready).uns = false ∧
    ready.cfg.asrUnsignedFill = .sign ∧
    zeroFill.err = .none ∧ (receiver (.lit .maxUnsigned) zeroFill).uns = true ∧ zeroFill.cfg.asrUnsignedFill = .zero := by decide
theorem witness_ShrOfASignedReceiverIsFloorDivision : ready.err = .none ∧
    (receiver (.lit .minValue) ready).uns = false := by decide
theorem witness_RotatesJoinComplementaryShifts : ready.err = .none ∧ 64 % 64 = 0 ∧ 1 % 64 ≠ 0 ∧ 63 % 64 ≠ 0 := by decide
theorem witness_ShiftAndRotateLaws : ready.err = .none := witness_ready
theorem witness_EqComparesFlagsAndWords : ready.err = .none ∧
    ((receiver (.lit .negOne) ready).uns ≠ Value.maxUnsigned.uns ∧
    (receiver (.lit .negOne) ready).high.getLsbD 31 = true ∧ Value.maxUnsigned.high.getLsbD 31 = true) ∧
    ¬ ((receiver (.lit .one) ready).uns ≠ Value.one.uns ∧
      (receiver (.lit .one) ready).high.getLsbD 31 = true ∧ Value.one.high.getLsbD 31 = true) := by decide
theorem witness_EqIsEqualityOfNumbers : ready.err = .none := witness_ready
theorem witness_CmpTakesTheFirstCaseThatApplies : ready.err = .none ∧
    nextField id (exec (.eq (.lit .one) .uone) ready) = some { ready with aux := 1 } ∧
    nextField id (exec (.eq (.lit .one) .negOne) ready) ≠ some { ready with aux := 1 } := by decide +kernel
theorem witness_CmpIsTheOrderOfNumbers : ready.err = .none := witness_ready
theorem witness_RadixOutsideTheRangeRaisesInvalidRadix : ready.err = .none ∧ 1 < 2 ∧ 36 < 37 := by decide
theorem witness_ToStrExtractsTheDigits : ready.err = .none ∧ 1 < 2 ∧ 36 < 37 ∧ 2 ≤ 2 ∧ 36 ≤ 36 ∧
    (receiver (.lit .uzero) ready).num = 0 ∧
    (receiver (.lit .minValue) ready).num ≠ 0 ∧ nextField (fun t => t.dig.len) (exec (.toStr (.lit .minValue) 2) ready) = some 64 := by
  decide +kernel
theorem witness_StringRoundTrip : ready.err = .none ∧ 2 ≤ 36 ∧ 36 ≤ 36 := by decide
theorem witness_BlockRealisesFromString : ready.err = .none ∧ 2 ≤ 36 ∧ 36 ≤ 36 ∧
    fromString false ['-', '2', 'a'] false 16 = .ok (.val (-42) false) ∧
    fromString false ['1'] false 1 = .error (.kind .invalidRadix) ∧
    fromString false [] false 10 = .error (.kind .emptyInput) := by decide +kernel
theorem witness_FromBytesAssemblesTheWords : ready.err = .none := witness_ready
theorem witness_ToBytesWritesTheLanes : ready.err = .none := witness_ready
theorem witness_ByteRoundTrip : ready.err = .none := witness_ready
theorem witness_BlockServesAsTheAccelerator : ready.err = .none ∧
    Value.num ⟨0xFFFFFFFF, 0xFFFFFFFF, true⟩ ≠ 0 ∧ Value.num ⟨1, 0, true⟩ ≠ 0 ∧
    accelerate .signedDivide 0xFFFFFFF9 0xFFFFFFFF 2 0 = some (0xFFFFFFFD, 0xFFFFFFFF) ∧
    accelerate .signedRemainder 0 0x80000000 0xFFFFFFFF 0xFFFFFFFF = some (0, 0) ∧
    accelerate .signedDivide 0 0x80000000 0xFFFFFFFF 0xFFFFFFFF = none := by decide +kernel
theorem witness_EveryStepCompletes : ready.input = [] ∧ nextField id (step ready) = some ready := by decide +kernel

end Sys2Proof.Tests
end

section
/-! PROOF. The number of a Value and the way back (00_scope.md R10): `num` on each branch of its definition, `num` and
the pattern modulo 2^64, and the sign test. -/

namespace Sys2Proof

@[simp] theorem Value.val_uns (p : Int) (u : Bool) : (Value.val p u).uns = u := rfl

theorem Value.num_of_unsigned {v : Value} (hu : v.uns = true) : v.num = v.pat.toNat := by
  rw [Value.num, if_pos hu]

theorem Value.num_of_signed_low {v : Value} (hu : v.uns = false) (h : v.pat.toNat < 2 ^ 63) :
    v.num = v.pat.toNat := by
  rw [Value.num, if_neg (by simp [hu]), if_pos h]

theorem Value.num_of_signed_high {v : Value} (hu : v.uns = false) (h : 2 ^ 63 ≤ v.pat.toNat) :
    v.num = (v.pat.toNat : Int) - 2 ^ 64 := by
  rw [Value.num, if_neg (by simp [hu]), if_neg (by omega)]

/-- The three ways a number is read from a pattern and a flag. -/
theorem Value.num_cases (v : Value) :
    (v.uns = true ∧ v.num = v.pat.toNat) ∨
    (v.uns = false ∧ v.pat.toNat < 2 ^ 63 ∧ v.num = v.pat.toNat) ∨
    (v.uns = false ∧ 2 ^ 63 ≤ v.pat.toNat ∧ v.num = (v.pat.toNat : Int) - 2 ^ 64) := by
  cases hu : v.uns with
  | true => exact .inl ⟨rfl, Value.num_of_unsigned hu⟩
  | false =>
    rcases Nat.lt_or_ge v.pat.toNat (2 ^ 63) with h | h
    · exact .inr (.inl ⟨rfl, h, Value.num_of_signed_low hu h⟩)
    · exact .inr (.inr ⟨rfl, h, Value.num_of_signed_high hu h⟩)

theorem Value.num_range_of_unsigned {v : Value} (hu : v.uns = true) : 0 ≤ v.num ∧ v.num ≤ 2 ^ 64 - 1 := by
  have hp := v.pat.isLt
  have hn := Value.num_of_unsigned hu
  omega

theorem Value.num_range_of_signed {v : Value} (hu : v.uns = false) : -(2 ^ 63) ≤ v.num ∧ v.num ≤ 2 ^ 63 - 1 := by
  have hp := v.pat.isLt
  rcases v.num_cases with ⟨unsigned, -⟩ | ⟨-, h, hn⟩ | ⟨-, h, hn⟩
  · simp [hu] at unsigned
  · omega
  · omega

/-- Whatever the flag, the number and the pattern differ by a multiple of 2^64. -/
theorem Value.num_emod (v : Value) : v.num % 2 ^ 64 = v.pat.toNat := by
  have hp := v.pat.isLt
  rcases v.num_cases with ⟨-, hn⟩ | ⟨-, -, hn⟩ | ⟨-, -, hn⟩ <;> omega

/-- `val` takes a number back to the Value it was read from. -/
@[simp] theorem Value.val_num (v : Value) : Value.val v.num v.uns = v := by
  refine Value.eq_of_pat (BitVec.eq_of_toNat_eq ?_) rfl
  have back : ((Value.val v.num v.uns).pat.toNat : Int) = v.pat.toNat := by
    rw [Machine.val_pat_toNat, Value.num_emod]
  exact_mod_cast back

/-- The top bit of the high word splits the patterns at 2^63. -/
theorem Value.topBit_iff (v : Value) : v.topBit = true ↔ 2 ^ 63 ≤ v.pat.toNat := by
  have hl := v.low.isLt
  rw [Value.topBit, ← BitVec.msb_eq_getLsbD_last, BitVec.msb_eq_decide, decide_eq_true_iff, v.pat_toNat]
  omega

/-- The block tests the flag and one bit: together they say that the number is negative. -/
theorem Value.isNeg_iff (v : Value) : v.isNeg = true ↔ v.num < 0 := by
  have test : v.isNeg = true ↔ v.uns = false ∧ 2 ^ 63 ≤ v.pat.toNat := by
    rw [← v.topBit_iff]
    simp [Value.isNeg]
  have hp := v.pat.isLt
  rw [test]
  rcases v.num_cases with ⟨hu, hn⟩ | ⟨hu, h, hn⟩ | ⟨hu, h, hn⟩
  · simp [hu, hn]
  · simp only [hu, true_and]
    omega
  · simp only [hu, true_and]
    omega

/-- Settles O1: the branches of `num` give its values and ranges; the way back rests on `Value.num_emod`, the sign test
on `Value.topBit_iff`. -/
theorem numberOfValueAndBack : Obligations.NumberOfValueAndBack := by
  refine ⟨fun v hu => ⟨Value.num_of_unsigned hu, Value.num_range_of_unsigned hu⟩, fun v hu => ?_, Value.val_num,
    fun p u => ⟨Value.val_uns p u, Machine.val_pat_toNat p u⟩, Value.isNeg_iff⟩
  obtain ⟨lower, upper⟩ := Value.num_range_of_signed hu
  exact ⟨lower, upper, Value.num_of_signed_low hu, Value.num_of_signed_high hu⟩

end Sys2Proof
end

section
/-! PROOF. The reset values (10_state.md R45) and the write discipline (R36): what each register write leaves alone, the
outcomes of a command sorted by which registers they may change, and the statement assembled from them. -/

namespace Sys2Proof.Machine

/-- Settles O19: `State.reset` gives the values; a lane or a digit place of a constant vector is that constant. -/
theorem resetValuesOfEveryRegister : Obligations.ResetValuesOfEveryRegister :=
  ⟨rfl, rfl, fun i => Vector.getElem_replicate i.isLt, rfl, rfl, fun i => Vector.getElem_replicate i.isLt, rfl⟩

/-- The frame of a write to `r`: the model's own fields stay, and no other register can differ. -/
structure ChangesOnly (r : RegName) (s t : State) : Prop where
  input : t.input = s.input
  cfg : t.cfg = s.cfg
  only : ∀ r', differ r' s t → r' = r

theorem ChangesOnly.others {r : RegName} {s t : State} (h : ChangesOnly r s t) (r' : RegName) (hr : r' ≠ r) :
    ¬ differ r' s t :=
  mt (h.only r') hr

theorem changesOnly_writeRes (s : State) (v : Value) : ChangesOnly .res s (s.writeRes v) :=
  ⟨rfl, rfl, fun r => by cases r <;> simp [differ]⟩

theorem changesOnly_writeAux (s : State) (w : Word) : ChangesOnly .aux s (s.writeAux w) :=
  ⟨rfl, rfl, fun r => by cases r <;> simp [differ]⟩

theorem changesOnly_writeByt (s : State) (b : Vector Byte 8) : ChangesOnly .byt s (s.writeByt b) :=
  ⟨rfl, rfl, fun r => by cases r <;> simp [differ]⟩

theorem changesOnly_writeDig (s : State) (d : DigitString) : ChangesOnly .dig s (s.writeDig d) :=
  ⟨rfl, rfl, fun r => by cases r <;> simp [differ]⟩

theorem changesOnly_raise (s : State) (k : ErrKind) : ChangesOnly .err s (s.raise k) :=
  ⟨rfl, rfl, fun r => by cases r <;> simp [differ]⟩

/-- CLRERR's write is the write of one more kind to `ERR` (R333). -/
theorem State.clearErr_eq_raise (s : State) : s.clearErr = s.raise .none := rfl

theorem changesOnly_clearErr (s : State) : ChangesOnly .err s s.clearErr :=
  s.clearErr_eq_raise ▸ changesOnly_raise s .none

/-- With no error held, a command other than CLRERR completes and changes its destination only, or fails by a raise. -/
theorem exec_completes_or_raises {i : Instr} {s t : State} (hi : i ≠ .clrErr) (ready : s.err = .none)
    (h : exec i s = .next t) :
    (t.err = .none ∧ ChangesOnly (destination i) s t) ∨ ∃ k, k ≠ .none ∧ t = s.raise k := by
  have answer {u : State} (hu : exec i s = .next u) : t = u := Host.Outcome.next.inj (h.symm.trans hu)
  rcases exec_cases i s with ⟨clears, -⟩ | ⟨-, held, -⟩ | ⟨-, -, hres | haux | hbyt | hdig | hdiv | hradix⟩
  · exact absurd clears hi
  · exact absurd ready held
  · obtain ⟨dest, v, hv⟩ := hres
    rw [answer hv, dest]
    exact .inl ⟨ready, changesOnly_writeRes s v⟩
  · obtain ⟨dest, w, hw⟩ := haux
    rw [answer hw, dest]
    exact .inl ⟨ready, changesOnly_writeAux s w⟩
  · obtain ⟨dest, b, hb⟩ := hbyt
    rw [answer hb, dest]
    exact .inl ⟨ready, changesOnly_writeByt s b⟩
  · obtain ⟨a, r, rfl, -, -, hd⟩ := hdig
    rw [answer hd]
    exact .inl ⟨ready, changesOnly_writeDig s _⟩
  · exact .inr ⟨.divisionByZero, by decide, answer hdiv.2⟩
  · exact .inr ⟨.invalidRadix, by decide, answer hradix.2⟩

/-- While an error is held, a command other than CLRERR is dropped (R331). -/
theorem exec_held {i : Instr} {s : State} (hi : i ≠ .clrErr) (held : s.err ≠ .none) : exec i s = .next s := by
  rcases exec_cases i s with ⟨clears, -⟩ | ⟨-, -, hs⟩ | ⟨-, ready, -⟩
  · exact absurd clears hi
  · exact hs
  · exact absurd ready held

/-- What a command can answer, by the registers it may have changed: CLRERR clears the latch; a command is dropped; it
completes; or it fails. -/
theorem exec_frame_cases {i : Instr} {s t : State} (h : exec i s = .next t) :
    (i = .clrErr ∧ t = s.clearErr) ∨
    (i ≠ .clrErr ∧ s.err ≠ .none ∧ t = s) ∨
    (i ≠ .clrErr ∧ s.err = .none ∧ t.err = .none ∧ ChangesOnly (destination i) s t) ∨
    (i ≠ .clrErr ∧ s.err = .none ∧ ∃ k, k ≠ .none ∧ t = s.raise k) := by
  by_cases hi : i = .clrErr
  · subst hi
    exact .inl ⟨rfl, (Host.Outcome.next.inj h).symm⟩
  · by_cases ready : s.err = .none
    · rcases exec_completes_or_raises hi ready h with ⟨completes, only⟩ | raises
      · exact .inr (.inr (.inl ⟨hi, ready, completes, only⟩))
      · exact .inr (.inr (.inr ⟨hi, ready, raises⟩))
    · rw [exec_held hi ready] at h
      exact .inr (.inl ⟨hi, ready, (Host.Outcome.next.inj h).symm⟩)

/-- Settles O13: in each of the four cases of `exec_frame_cases` the frame is that of the one write made, and the
clauses about the other cases have hypotheses that this case contradicts. -/
theorem commandWritesOnlyItsDestination : Obligations.CommandWritesOnlyItsDestination := by
  intro i s t h
  rcases exec_frame_cases h with ⟨rfl, rfl⟩ | ⟨hi, held, rfl⟩ | ⟨hi, ready, completes, only⟩ |
    ⟨hi, ready, k, hk, rfl⟩
  · exact ⟨rfl, rfl, fun _ _ => (changesOnly_clearErr s).others, fun _ fails => absurd rfl fails,
      fun _ hi => absurd rfl hi, fun _ => rfl⟩
  · exact ⟨rfl, rfl, fun ready => absurd ready held, fun ready => absurd ready held, fun _ _ => rfl,
      fun clears => absurd clears hi⟩
  · exact ⟨only.input, only.cfg, fun _ _ => only.others, fun _ fails => absurd completes fails,
      fun held => absurd ready held, fun clears => absurd clears hi⟩
  · exact ⟨rfl, rfl, fun _ completes => absurd completes hk, fun _ _ => rfl, fun held => absurd ready held,
      fun clears => absurd clears hi⟩

end Sys2Proof.Machine
end

section
/-! PROOF. Legality (30_encoding.md R73) and operand selection (R74). Both are read off the fields of `W0`: a packet is
legal by `OP` and `RSV` alone, which `mask` cuts out of the word, and a chained packet and its literal twin differ in the
A slot alone. -/

namespace Sys2Proof

open Machine

/-! ### Legality -/

/-- Every assigned tag has an arm in the tag map, whatever the operand fields hold. -/
theorem decodeTag_of_assigned {p : Packet} : ∀ t ∈ assignedTags, p.op = t → ∃ i, decodeTag p = .ok i := by
  simp +contextual [assignedTags, decodeTag]

/-- The tag map answers a command exactly on the assigned tags (R75). -/
theorem decodeTag_ok_iff (p : Packet) : (∃ i, decodeTag p = .ok i) ↔ p.op ∈ assignedTags := by
  constructor
  · rintro ⟨i, hi⟩
    obtain ⟨-, -, assigned⟩ := decodeTag_ok hi
    exact assigned
  · exact fun assigned => decodeTag_of_assigned _ assigned rfl

theorem decode_of_rsv_zero {p : Packet} (h : p.rsv = 0) : decode p = decodeTag p := if_pos h

theorem decode_of_rsv_ne_zero {p : Packet} (h : p.rsv ≠ 0) : decode p = .error .reservedBits := if_neg h

/-- R73: a packet is legal by `RSV` and `OP`. -/
theorem decode_ok_iff (p : Packet) : (∃ i, decode p = .ok i) ↔ p.rsv = 0 ∧ p.op ∈ assignedTags := by
  by_cases h : p.rsv = 0
  · simp only [decode_of_rsv_zero h, decodeTag_ok_iff, h, true_and]
  · simp only [decode_of_rsv_ne_zero h, h, false_and, reduceCtorEq, exists_false]

/-- The ones of `mask` stand at the bits of `OP` and `RSV` (R73). -/
theorem mask_bit : ∀ i < 32, (0xFFFFFE3F : Word).getLsbD i = (decide (i < 6) || decide (9 ≤ i)) := by decide

/-- `mask` keeps `RSV` and `OP` and clears the three flag bits between them. -/
theorem mask_eq_append (w : Word) : w &&& 0xFFFFFE3F = w.extractLsb' 9 23 ++ 0#3 ++ w.extractLsb' 0 6 := by
  refine BitVec.eq_of_getLsbD_eq fun i hi => ?_
  rw [BitVec.getLsbD_and, mask_bit i hi, BitVec.getLsbD_append, BitVec.getLsbD_append]
  simp only [BitVec.getLsbD_extractLsb']
  rcases Nat.lt_or_ge i 6 with op | notOp
  · simp [op]
  rcases Nat.lt_or_ge i 9 with flag | rsv
  · have inside : i - 6 < 3 := by omega
    simp [notOp.not_gt, flag.not_ge, inside]
  · have above : ¬ i - 6 < 3 := by omega
    have place : 9 + (i - 6 - 3) = i := by omega
    have width : i - 6 - 3 < 23 := by omega
    simp [place, width, above, notOp.not_gt, rsv]

theorem bits_append_eq_iff {n m : Nat} {a a' : BitVec n} {b b' : BitVec m} :
    a ++ b = a' ++ b' ↔ a = a' ∧ b = b' := by
  refine ⟨fun h => ⟨?_, ?_⟩, fun ⟨ha, hb⟩ => ha ▸ hb ▸ rfl⟩
  · simpa [BitVec.extractLsb'_append_eq_left] using congrArg (BitVec.extractLsb' m n) h
  · simpa [BitVec.extractLsb'_append_eq_right] using congrArg (BitVec.extractLsb' 0 m) h

/-- `W0` masked is the tag exactly when `RSV` is zero and `OP` is the tag (R73). -/
theorem masked_eq_tag_iff (w : Word) (t : BitVec 6) :
    w &&& 0xFFFFFE3F = t.setWidth 32 ↔ w.extractLsb' 9 23 = 0 ∧ w.extractLsb' 0 6 = t := by
  have widened : t.setWidth 32 = 0#23 ++ 0#3 ++ t := by
    revert t
    decide
  rw [mask_eq_append, widened, bits_append_eq_iff, bits_append_eq_iff]
  simp

/-- The same legality by `match` and `mask` of the opcode table. -/
theorem decode_ok_iff_masked (p : Packet) :
    (∃ i, decode p = .ok i) ↔ ∃ t ∈ assignedTags, p.w0 &&& 0xFFFFFE3F = t.setWidth 32 := by
  rw [decode_ok_iff]
  simp only [masked_eq_tag_iff]
  constructor
  · exact fun ⟨rsv, assigned⟩ => ⟨p.op, assigned, rsv, rfl⟩
  · rintro ⟨t, assigned, rsv, rfl⟩
    exact ⟨rsv, assigned⟩

namespace Machine

theorem performPacket_ok {p : Packet} {i : Instr} (h : decode p = .ok i) (s : State) : performPacket p s = exec i s := by
  simp only [performPacket, h]

theorem performPacket_error {p : Packet} {e : Illegal} (h : decode p = .error e) (s : State) :
    performPacket p s = performIllegal s := by
  simp only [performPacket, h]

/-- R325: with no error held a packet that spells no command raises IllegalCommand. -/
theorem performPacket_illegal {p : Packet} {s : State} (ready : s.err = .none) (h : ¬ ∃ i, decode p = .ok i) :
    performPacket p s = .next (s.raise .illegalCommand) := by
  rcases performPacket_cases p s with ⟨i, hi, -⟩ | ⟨-, illegal⟩
  · exact absurd ⟨i, hi⟩ h
  · rw [illegal]
    exact perform_ready ready _

/-- Settles O5: legality is `decode_ok_iff`, in the form of the opcode table `decode_ok_iff_masked`; both speak of `W0`
alone, so packets that share it agree. -/
theorem legalityIsReadFromTheFirstWord : Obligations.LegalityIsReadFromTheFirstWord := by
  refine ⟨decode_ok_iff, decode_ok_iff_masked, fun p q sameW0 => ?_, fun p s => performPacket_illegal⟩
  rw [decode_ok_iff_masked, decode_ok_iff_masked, sameW0]

/-! ### Operand selection -/

/-- CHAIN = 1 selects `RES` (R74). -/
theorem receiver_of_chain {p : Packet} (h : p.chain = true) (s : State) : receiver p.receiver s = s.res := by
  simp only [Packet.receiver, h, receiver_res]

/-- CHAIN = 0 selects the packet's A fields (R74). -/
theorem receiver_of_not_chain {p : Packet} (h : p.chain = false) (s : State) :
    receiver p.receiver s = ⟨p.w1, p.w2, p.aUns⟩ := by
  simp only [Packet.receiver, h, receiver_lit]

/-! The fields of a `W0` put together from its fields, with any `RSV` (R71); `OP` is `extractLsb'_append_eq_right`. -/

section fieldsOfW0
variable (rsv : BitVec 23) (chain bUns aUns : Bool) (op : BitVec 6)

theorem w0_aUns :
    (rsv ++ BitVec.ofBool chain ++ BitVec.ofBool bUns ++ BitVec.ofBool aUns ++ op).getLsbD 6 = aUns := by
  rw [BitVec.getLsbD_append, BitVec.getLsbD_append]
  simp

theorem w0_bUns :
    (rsv ++ BitVec.ofBool chain ++ BitVec.ofBool bUns ++ BitVec.ofBool aUns ++ op).getLsbD 7 = bUns := by
  rw [BitVec.getLsbD_append, BitVec.getLsbD_append, BitVec.getLsbD_append]
  simp

theorem w0_chain :
    (rsv ++ BitVec.ofBool chain ++ BitVec.ofBool bUns ++ BitVec.ofBool aUns ++ op).getLsbD 8 = chain := by
  rw [BitVec.getLsbD_append, BitVec.getLsbD_append, BitVec.getLsbD_append, BitVec.getLsbD_append]
  simp

theorem w0_rsv :
    (rsv ++ BitVec.ofBool chain ++ BitVec.ofBool bUns ++ BitVec.ofBool aUns ++ op).extractLsb' 9 23 = rsv := by
  rw [BitVec.extractLsb'_append_eq_of_le (by decide), BitVec.extractLsb'_append_eq_of_le (by decide),
    BitVec.extractLsb'_append_eq_of_le (by decide)]
  exact BitVec.extractLsb'_append_eq_left

end fieldsOfW0

section withLiteral
variable (p : Packet) (v : Value)

@[simp] theorem withLiteral_op : (withLiteral p v).op = p.op := BitVec.extractLsb'_append_eq_right
@[simp] theorem withLiteral_aUns : (withLiteral p v).aUns = v.uns := w0_aUns ..
@[simp] theorem withLiteral_bUns : (withLiteral p v).bUns = p.bUns := w0_bUns ..
@[simp] theorem withLiteral_chain : (withLiteral p v).chain = false := w0_chain ..
@[simp] theorem withLiteral_rsv : (withLiteral p v).rsv = p.rsv := w0_rsv ..
@[simp] theorem withLiteral_plain : (withLiteral p v).plain = p.plain := rfl

@[simp] theorem withLiteral_receiver : (withLiteral p v).receiver = .lit v := by
  simp only [Packet.receiver, withLiteral_chain, withLiteral_aUns]
  rfl

@[simp] theorem withLiteral_other : (withLiteral p v).other = p.other := by
  simp only [Packet.other, withLiteral_bUns]
  rfl

end withLiteral

/-- The literal twin of a command in the state `s`: the receiver that `s` selects, written into the command. -/
def literalTwin (s : State) : Instr → Instr
  | .fromBits a => .fromBits (.lit (receiver a s))
  | .fromInt a => .fromInt (.lit (receiver a s))
  | .toInt a => .toInt (.lit (receiver a s))
  | .toUnsigned a => .toUnsigned (.lit (receiver a s))
  | .toSigned a => .toSigned (.lit (receiver a s))
  | .fromBytesLE a => .fromBytesLE (.lit (receiver a s))
  | .fromBytesBE a => .fromBytesBE (.lit (receiver a s))
  | .toBytesLE a => .toBytesLE (.lit (receiver a s))
  | .toBytesBE a => .toBytesBE (.lit (receiver a s))
  | .add a b => .add (.lit (receiver a s)) b
  | .neg a => .neg (.lit (receiver a s))
  | .sub a b => .sub (.lit (receiver a s)) b
  | .mul a b => .mul (.lit (receiver a s)) b
  | .div a b => .div (.lit (receiver a s)) b
  | .mod a b => .mod (.lit (receiver a s)) b
  | .and a b => .and (.lit (receiver a s)) b
  | .or a b => .or (.lit (receiver a s)) b
  | .xor a b => .xor (.lit (receiver a s)) b
  | .not a => .not (.lit (receiver a s))
  | .clz a => .clz (.lit (receiver a s))
  | .ctz a => .ctz (.lit (receiver a s))
  | .shl a count => .shl (.lit (receiver a s)) count
  | .shr a count => .shr (.lit (receiver a s)) count
  | .shru a count => .shru (.lit (receiver a s)) count
  | .rotl a count => .rotl (.lit (receiver a s)) count
  | .rotr a count => .rotr (.lit (receiver a s)) count
  | .eq a b => .eq (.lit (receiver a s)) b
  | .cmp a b => .cmp (.lit (receiver a s)) b
  | .toStr a radix => .toStr (.lit (receiver a s)) radix
  | .clrErr => .clrErr

/-- A command's effect counts only in the state it is performed in. -/
theorem perform_congr {s : State} {f g : State → State} (h : f s = g s) : perform s f = perform s g := by
  simp only [perform, h]

/-- A command reads its receiver in the state it is performed in, so it does there what its literal twin does. -/
theorem exec_literalTwin (i : Instr) (s : State) : exec (literalTwin s i) s = exec i s := by
  cases i with
  | clrErr => rfl
  | _ =>
    simp only [exec, literalTwin]
    exact perform_congr rfl

/-- With the selected receiver in its A fields a packet has the same tag and B slot, so the tag map gives the twin. -/
theorem decodeTag_withLiteral (p : Packet) (s : State) :
    decodeTag (withLiteral p (receiver p.receiver s)) = (decodeTag p).map (literalTwin s) := by
  simp only [decodeTag, withLiteral_op, withLiteral_receiver, withLiteral_other, withLiteral_plain]
  split <;> rfl

theorem decode_withLiteral (p : Packet) (s : State) :
    decode (withLiteral p (receiver p.receiver s)) = (decode p).map (literalTwin s) := by
  by_cases h : p.rsv = 0
  · rw [decode_of_rsv_zero h, decode_of_rsv_zero ((withLiteral_rsv ..).trans h), decodeTag_withLiteral]
  · rw [decode_of_rsv_ne_zero h, decode_of_rsv_ne_zero (ne_of_eq_of_ne (withLiteral_rsv ..) h)]
    rfl

/-- A packet, legal or not, is performed as the packet with CHAIN = 0 that carries the selected receiver (R74). -/
theorem performPacket_withLiteral (p : Packet) (s : State) :
    performPacket (withLiteral p (receiver p.receiver s)) s = performPacket p s := by
  have twin := decode_withLiteral p s
  cases h : decode p with
  | ok i =>
    rw [h] at twin
    rw [performPacket_ok twin, performPacket_ok h, exec_literalTwin]
  | error e =>
    rw [h] at twin
    rw [performPacket_error twin, performPacket_error h]

/-- Settles O7: with CHAIN = 1 the selected receiver is `RES`, so `performPacket_withLiteral` speaks of the packet that
carries `RES`. -/
theorem chainTakesTheReceiverFromRes : Obligations.ChainTakesTheReceiverFromRes := by
  refine ⟨fun p s _ chain => ?_, fun _ s chain => receiver_of_chain chain s,
    fun _ s literal => receiver_of_not_chain literal s, fun _ => rfl⟩
  rw [← receiver_of_chain chain s, performPacket_withLiteral]

end Machine
end Sys2Proof
end

section
/-! PROOF. The representation commands (40_representation.md R100 to R110): what FROMINT's extension gives for each flag,
what each of the five commands answers with no error held, and the statements assembled from these and the tags. -/

namespace Sys2Proof

theorem Value.extendLow_signed (low : Word) :
    Value.extendLow low false = ⟨low, if low.getLsbD 31 = true then 0xFFFFFFFF else 0x00000000, false⟩ := rfl

theorem Value.extendLow_unsigned (low : Word) : Value.extendLow low true = ⟨low, 0x00000000, true⟩ := rfl

theorem Value.withFlag_eq (v : Value) (u : Bool) : v.withFlag u = ⟨v.low, v.high, u⟩ := rfl

namespace Machine

/-! ### The answers with no error held -/

section ready
variable (a : Receiver) {s : State}

theorem exec_fromBits_ready (ready : s.err = .none) :
    exec (.fromBits a) s = .next (s.writeRes (receiver a s)) := by
  rw [exec, execFromBits, perform_ready ready]

theorem exec_fromInt_ready (ready : s.err = .none) :
    exec (.fromInt a) s = .next (s.writeRes (.extendLow (receiver a s).low (receiver a s).uns)) := by
  rw [exec, execFromInt, perform_ready ready]

theorem exec_toInt_ready (ready : s.err = .none) :
    exec (.toInt a) s = .next (s.writeAux (receiver a s).low) := by
  rw [exec, execToInt, perform_ready ready]

theorem exec_toUnsigned_ready (ready : s.err = .none) :
    exec (.toUnsigned a) s = .next (s.writeRes ((receiver a s).withFlag true)) := by
  rw [exec, execToUnsigned, perform_ready ready]

theorem exec_toSigned_ready (ready : s.err = .none) :
    exec (.toSigned a) s = .next (s.writeRes ((receiver a s).withFlag false)) := by
  rw [exec, execToSigned, perform_ready ready]

end ready

/-! ### The statements -/

/-- Settles O23: the Value written is the receiver itself, which is the triple of its fields. -/
theorem fromBitsCopiesTheReceiver : Obligations.FromBitsCopiesTheReceiver :=
  fun a _ => ⟨(Laws.EncodedHeader.fromBits a).1, exec_fromBits_ready a⟩

/-- Settles O24, by the flag of the receiver: each clause is one reading of the extension. -/
theorem fromIntExtendsTheLowWord : Obligations.FromIntExtendsTheLowWord := by
  refine fun a s => ⟨(Laws.EncodedHeader.fromInt a).1, fun ready signed => ?_, fun ready unsigned => ?_⟩
  · rw [exec_fromInt_ready a ready, signed, Value.extendLow_signed, State.writeRes]
  · rw [exec_fromInt_ready a ready, unsigned, Value.extendLow_unsigned, State.writeRes]

/-- Settles O25: TOINT's one write, which takes nothing but the low word from the receiver. -/
theorem toIntWritesTheLowWord : Obligations.ToIntWritesTheLowWord :=
  fun a _ => ⟨(Laws.EncodedHeader.toInt a).1, exec_toInt_ready a⟩

/-- Settles O26: both commands write the receiver under a flag of their own, and `withFlag` keeps the words. -/
theorem toUnsignedAndToSignedKeepThePattern : Obligations.ToUnsignedAndToSignedKeepThePattern := by
  refine fun a s => ⟨(Laws.EncodedHeader.toUnsigned a).1, (Laws.EncodedHeader.toSigned a).1, fun ready => ?_,
    fun ready => ?_⟩
  · rw [exec_toUnsigned_ready a ready, Value.withFlag_eq, State.writeRes]
  · rw [exec_toSigned_ready a ready, Value.withFlag_eq, State.writeRes]

end Machine
end Sys2Proof
end

section
/-! PROOF. The adder (41_add_neg_sub.md R120 to R135): the limb datapath's sum, negation and difference as `val` of the
pattern arithmetic, the laws by which they undo each other, what ADD, NEG, SUB and EQ answer with no error held, and the
statements assembled from these and the tags. -/

namespace Sys2Proof

/-- A Value is `val` of any integer its pattern stands for, under its own flag (R10). -/
theorem Value.eq_val {v : Value} {n : Int} (hp : v.pat = BitVec.ofInt 64 n) : v = Value.val n v.uns :=
  Value.eq_of_pat (hp.trans (Value.pat_ofPat ..).symm) rfl

/-- The limb adder's answer in the form of R120. -/
theorem Value.addLimbs_eq_val (a b : Value) :
    a.addLimbs b = Value.val (a.pat.toNat + b.pat.toNat : Nat) a.uns := by
  refine Value.eq_val ?_
  rw [Value.addLimbs_pat, BitVec.ofInt_natCast, BitVec.ofNat_add, BitVec.ofNat_toNat, BitVec.ofNat_toNat,
    BitVec.setWidth_eq, BitVec.setWidth_eq]

/-- The negation in the form of R125. -/
theorem Value.negate_eq_val (a : Value) : a.negate = Value.val (2 ^ 64 - a.pat.toNat) a.uns := by
  refine Value.eq_val (BitVec.eq_of_toNat_eq ?_)
  rw [Value.negate_pat, BitVec.toNat_neg, BitVec.toNat_ofInt]
  omega

/-- The difference in the form of R130: the subtraction is of integers, so it may go below zero before it wraps. -/
theorem Value.subLimbs_eq_val (a b : Value) :
    a.subLimbs b = Value.val (a.pat.toNat - b.pat.toNat) a.uns := by
  refine Value.eq_val (BitVec.eq_of_toNat_eq ?_)
  rw [Value.subLimbs_pat, BitVec.toNat_sub, BitVec.toNat_ofInt]
  omega

/-- Subtraction undoes addition, whatever the flag of `b` (R135). -/
@[simp] theorem Value.subLimbs_addLimbs (a b : Value) : (a.addLimbs b).subLimbs b = a := by
  refine Value.eq_of_pat ?_ rfl
  rw [Value.subLimbs_pat, Value.addLimbs_pat, BitVec.add_sub_cancel]

/-- Negation undoes itself, at `MIN_VALUE` too (R135). -/
@[simp] theorem Value.negate_negate (a : Value) : a.negate.negate = a := by
  refine Value.eq_of_pat ?_ rfl
  rw [Value.negate_pat, Value.negate_pat, BitVec.neg_neg]

/-- `MIN_VALUE` is its own negation (R126). -/
theorem Value.negate_minValue : Value.minValue.negate = Value.minValue := by decide

/-- A Value has one flag, so the mismatch test of R231 cannot apply to it and itself. -/
@[simp] theorem Value.equal_self (v : Value) : v.equal v = true := by
  simp [Value.equal]

namespace Machine

/-! ### The answers with no error held -/

section ready
variable (a : Receiver) (b : Value) {s : State}

theorem exec_add_ready (ready : s.err = .none) :
    exec (.add a b) s = .next (s.writeRes ((receiver a s).addLimbs b)) := by
  rw [exec, execAdd, perform_ready ready]

theorem exec_neg_ready (ready : s.err = .none) :
    exec (.neg a) s = .next (s.writeRes (receiver a s).negate) := by
  rw [exec, execNeg, perform_ready ready]

theorem exec_sub_ready (ready : s.err = .none) :
    exec (.sub a b) s = .next (s.writeRes ((receiver a s).subLimbs b)) := by
  rw [exec, execSub, perform_ready ready]

theorem exec_eq_ready (ready : s.err = .none) :
    exec (.eq a b) s = .next (s.writeAux (if (receiver a s).equal b then 1 else 0)) := by
  rw [exec, execEq, perform_ready ready]

/-- EQ of `RES` against the Value it holds answers 1. -/
theorem exec_eq_res_self (ready : s.err = .none) (same : s.res = b) : exec (.eq .res b) s = .next (s.writeAux 1) := by
  rw [exec_eq_ready .res b ready, receiver_res, same, Value.equal_self, if_pos rfl]

end ready

/-! ### The statements -/

/-- Settles O28: the Value written is the limb adder's, and `Value.addLimbs_eq_val` says which it is. -/
theorem addWrapsThePatternSum : Obligations.AddWrapsThePatternSum := by
  refine fun a b s => ⟨(Laws.EncodedHeader.add a b).1, fun ready => ?_⟩
  rw [exec_add_ready a b ready, Value.addLimbs_eq_val, State.writeRes]

/-- Settles O29: the Value written is the receiver's negation, and `Value.negate_eq_val` says which it is. -/
theorem negWrapsThePatternNegation : Obligations.NegWrapsThePatternNegation := by
  refine fun a s => ⟨(Laws.EncodedHeader.neg a).1, fun ready => ?_⟩
  rw [exec_neg_ready a ready, Value.negate_eq_val, State.writeRes]

/-- Settles O30: the Value written is the adder's difference, and `Value.subLimbs_eq_val` says which it is. -/
theorem subWrapsThePatternDifference : Obligations.SubWrapsThePatternDifference := by
  refine fun a b s => ⟨(Laws.EncodedHeader.sub a b).1, fun ready => ?_⟩
  rw [exec_sub_ready a b ready, Value.subLimbs_eq_val, State.writeRes]

/-- Settles O32: neither write raises an error, so the second command is performed on the first one's `RES` and undoes
it, which leaves EQ to compare a Value with itself. -/
theorem addThenSubAndDoubleNegationReturn : Obligations.AddThenSubAndDoubleNegationReturn := by
  intro a b s ready
  have restored : (a.addLimbs b).subLimbs b = a := Value.subLimbs_addLimbs a b
  have returned : a.negate.negate = a := Value.negate_negate a
  exact ⟨⟨_, _, _, exec_add_ready (.lit a) b ready, exec_sub_ready .res b ready, exec_eq_res_self a ready restored,
      restored, rfl⟩,
    ⟨_, _, _, exec_neg_ready (.lit a) ready, exec_neg_ready .res ready, exec_eq_res_self a ready returned,
      returned, rfl⟩,
    _, exec_neg_ready (.lit .minValue) ready, Value.negate_minValue⟩

end Machine
end Sys2Proof
end

section
/-! PROOF. The multiplier (42_multiply.md R140 to R147): the limb datapath's product as `val` of the product of the
patterns, what it is when an operand's pattern is zero or that of `MIN_VALUE`, what MUL answers with no error held, and
the statements assembled from these and the tag. -/

namespace Sys2Proof

/-- The limb multiplier's answer in the form of R140. -/
theorem Value.mulLimbs_eq_val (a b : Value) :
    a.mulLimbs b = Value.val (a.pat.toNat * b.pat.toNat : Nat) a.uns := by
  refine Value.eq_val ?_
  rw [Value.mulLimbs_pat, BitVec.ofInt_natCast, BitVec.ofNat_mul, BitVec.ofNat_toNat, BitVec.ofNat_toNat,
    BitVec.setWidth_eq, BitVec.setWidth_eq]

/-- The zero pattern is the pattern of two zero words (R147). -/
theorem Value.pat_eq_zero_iff (v : Value) : v.pat = 0 ↔ v.low = 0 ∧ v.high = 0 := by
  rw [← BitVec.toNat_inj, ← BitVec.toNat_inj, ← BitVec.toNat_inj, v.pat_toNat]
  simp only [BitVec.ofNat_eq_ofNat, BitVec.toNat_ofNat]
  omega

/-- The product is the zero of R147 as soon as the patterns multiply to zero. -/
theorem Value.mulLimbs_eq_zero {a b : Value} (product : a.pat * b.pat = 0) : a.mulLimbs b = ⟨0, 0, a.uns⟩ := by
  have zero : (⟨0, 0, a.uns⟩ : Value).pat = 0 := (Value.pat_eq_zero_iff _).2 ⟨rfl, rfl⟩
  exact Value.eq_of_pat ((Value.mulLimbs_pat a b).trans (product.trans zero.symm)) rfl

/-- The lowest bit of a pattern, which is that of `low`, says whether it is odd (R143). -/
theorem Value.odd_iff (v : Value) : v.low.getLsbD 0 = true ↔ v.pat.toNat % 2 = 1 := by
  have bit : v.low.getLsbD 0 = v.pat.getLsbD 0 := by rw [Value.getLsbD_pat, if_pos (by decide)]
  rw [bit, BitVec.getLsbD, Nat.testBit_zero, decide_eq_true_iff]

/-- `2^63 * k` modulo 2^64 is `2^63` for odd `k` and 0 for even `k` (R143). -/
theorem Value.pat_mul_minValue (v : Value) :
    v.pat * Value.minValue.pat = if v.low.getLsbD 0 = true then Value.minValue.pat else 0 := by
  have top : Value.minValue.pat.toNat = 2 ^ 63 := by decide
  have zero : (0 : Pattern).toNat = 0 := rfl
  apply BitVec.eq_of_toNat_eq
  rw [BitVec.toNat_mul, top]
  by_cases odd : v.low.getLsbD 0 = true
  · have := v.odd_iff.1 odd
    rw [if_pos odd, top]
    omega
  · have := mt v.odd_iff.2 odd
    rw [if_neg odd, zero]
    omega

/-- The words that R143 gives, as a pattern. -/
theorem Value.pat_minValue_or_zero (odd u : Bool) :
    (⟨0, if odd = true then 0x80000000 else 0, u⟩ : Value).pat = if odd = true then Value.minValue.pat else 0 := by
  cases odd with
  | true => rfl
  | false => exact (Value.pat_eq_zero_iff _).2 ⟨rfl, rfl⟩

/-- The product in the form of R143, when the patterns multiply to `MIN_VALUE` times the pattern of `v`: `v` is the
operand that is not `MIN_VALUE`, on either side. -/
theorem Value.mulLimbs_eq_minValue_or_zero {a b v : Value} (product : a.pat * b.pat = v.pat * Value.minValue.pat) :
    a.mulLimbs b = ⟨0, if v.low.getLsbD 0 = true then 0x80000000 else 0, a.uns⟩ := by
  refine Value.eq_of_pat ?_ rfl
  rw [Value.mulLimbs_pat, product, Value.pat_mul_minValue, Value.pat_minValue_or_zero]

namespace Machine

theorem exec_mul_ready (a : Receiver) (b : Value) {s : State} (ready : s.err = .none) :
    exec (.mul a b) s = .next (s.writeRes ((receiver a s).mulLimbs b)) := by
  rw [exec, execMul, perform_ready ready]

/-! ### The statements -/

/-- Settles O33: the Value written is the limb multiplier's, and `Value.mulLimbs_eq_val` says which it is. -/
theorem mulWrapsThePatternProduct : Obligations.MulWrapsThePatternProduct := by
  refine fun a b s => ⟨(Laws.EncodedHeader.mul a b).1, fun ready => ?_⟩
  rw [exec_mul_ready a b ready, Value.mulLimbs_eq_val, State.writeRes]

/-- Settles O34: each clause fixes the product of the two patterns, as zero or as `MIN_VALUE` times the other operand,
and the limb multiplier's answer follows from that product. -/
theorem mulByZeroAndByMinValue : Obligations.MulByZeroAndByMinValue := by
  intro a b s ready
  rw [exec_mul_ready a b ready]
  refine ⟨fun zero => ?_, fun left => ?_, fun right => ?_⟩
  · have product : (receiver a s).pat * b.pat = 0 := by
      rcases zero with left | right
      · rw [(Value.pat_eq_zero_iff _).2 left]
        exact BitVec.zero_mul
      · rw [(Value.pat_eq_zero_iff _).2 right]
        exact BitVec.mul_zero
    rw [Value.mulLimbs_eq_zero product, State.writeRes]
  · have product : (receiver a s).pat * b.pat = b.pat * Value.minValue.pat := by rw [left, BitVec.mul_comm]
    rw [Value.mulLimbs_eq_minValue_or_zero product, State.writeRes]
  · have product : (receiver a s).pat * b.pat = (receiver a s).pat * Value.minValue.pat := by rw [right]
    rw [Value.mulLimbs_eq_minValue_or_zero product, State.writeRes]

end Machine
end Sys2Proof
end

section
/-! PROOF. The divider (43_divide_modulo.md R160 to R181): the zero test of R163, the quotient as `val` of the floor or
of the truncated quotient, the remainder by the rules of DIV, MUL and SUB, what DIV and MOD answer with no error held,
and the statements assembled from these and the tags. -/

namespace Sys2Proof

/-! ### Integers modulo 2^64 -/

/-- `val` takes its integer modulo 2^64 (R10). -/
theorem Value.val_congr {m n : Int} (u : Bool) (h : m ≡ n [ZMOD 2 ^ 64]) : Value.val m u = Value.val n u := by
  refine Value.eq_val (BitVec.eq_of_toNat_eq ?_)
  have same : m % 2 ^ 64 = n % 2 ^ 64 := h
  have hm := Machine.val_pat_toNat m u
  rw [BitVec.toNat_ofInt]
  omega

/-- `Value.num_emod` as a congruence. -/
theorem Value.pat_modEq_num (v : Value) : (v.pat.toNat : Int) ≡ v.num [ZMOD 2 ^ 64] := by
  rw [← v.num_emod]
  exact Int.mod_modEq ..

/-- `Machine.val_pat_toNat` as a congruence. -/
theorem Value.val_pat_modEq (n : Int) (u : Bool) : ((Value.val n u).pat.toNat : Int) ≡ n [ZMOD 2 ^ 64] := by
  rw [Machine.val_pat_toNat]
  exact Int.mod_modEq ..

/-- A number below 2^64 does not wrap: it is the pattern of its `val`. -/
theorem Value.val_pat_of_lt {n : Nat} (u : Bool) (h : n < 2 ^ 64) : (Value.val n u).pat.toNat = n := by
  have hp := Machine.val_pat_toNat n u
  omega

/-! ### The operands of the divider -/

/-- The two words are tested, not the pattern (R163). -/
theorem Value.isZero_iff (v : Value) : v.isZero = true ↔ v.pat = 0 := by
  rw [v.pat_eq_zero_iff, Value.isZero, Bool.and_eq_true, beq_iff_eq, beq_iff_eq]

/-- Whatever the flag, only the zero pattern reads as the number zero. -/
theorem Value.num_eq_zero_iff (v : Value) : v.num = 0 ↔ v.pat = 0 := by
  have hp := v.pat.isLt
  have zero : v.pat = 0 ↔ v.pat.toNat = 0 := BitVec.toNat_inj.symm
  rw [zero]
  rcases v.num_cases with ⟨-, hn⟩ | ⟨-, -, hn⟩ | ⟨-, high, hn⟩ <;> omega

/-- A pattern read as signed, split by the top bit (R10). -/
theorem Value.num_ofPat_signed (v : Value) :
    (Value.ofPat v.pat false).num = if v.topBit = true then (v.pat.toNat : Int) - 2 ^ 64 else (v.pat.toNat : Int) := by
  rcases (Value.ofPat v.pat false).num_cases with ⟨unsigned, -⟩ | ⟨-, low, hn⟩ | ⟨-, high, hn⟩
  · cases unsigned
  · rw [Value.pat_ofPat] at low hn
    rw [hn, if_neg (mt v.topBit_iff.1 low.not_ge)]
  · rw [Value.pat_ofPat] at high hn
    rw [hn, if_pos (v.topBit_iff.2 high)]

/-- The sign of R171 is the sign of the pattern read as signed. -/
theorem Value.topBit_eq_neg (v : Value) : v.topBit = decide ((Value.ofPat v.pat false).num < 0) := by
  have hp := v.pat.isLt
  rw [Bool.eq_iff_iff, decide_eq_true_iff, v.num_ofPat_signed]
  simp only [v.topBit_iff]
  split <;> omega

/-- The magnitude of R171 is the absolute value of the pattern read as signed. -/
theorem Value.magnitude_eq_natAbs (v : Value) : v.magnitude v.topBit = (Value.ofPat v.pat false).num.natAbs := by
  have hp := v.pat.isLt
  rw [v.num_ofPat_signed, Value.magnitude]
  split <;> omega

/-- R161: the truncated quotient is the floor of the magnitudes' quotient, negated when the signs differ. -/
theorem tdiv_eq_signed_floor (x y : Int) :
    x.tdiv y = if (decide (x < 0) != decide (y < 0)) = true then -((x.natAbs / y.natAbs : Nat) : Int)
      else (x.natAbs / y.natAbs : Nat) := by
  rw [Int.ofNat_tdiv, Int.natCast_natAbs, Int.natCast_natAbs]
  rcases lt_or_ge x 0 with hx | hx <;> rcases lt_or_ge y 0 with hy | hy
  · simp [hx, hy, abs_of_neg]
  · simp [hx, hy.not_gt, abs_of_neg, abs_of_nonneg hy]
  · simp [hx.not_gt, hy, abs_of_neg, abs_of_nonneg hx]
  · simp [hx.not_gt, hy.not_gt, abs_of_nonneg hx, abs_of_nonneg hy]

/-- Negation modulo 2^64 of an unsigned quotient (R171). -/
theorem ofNat_neg_wrapped {q : Nat} (h : q ≤ 2 ^ 64) :
    BitVec.ofNat 64 ((2 ^ 64 - q) % 2 ^ 64) = BitVec.ofInt 64 (-(q : Int)) := by
  apply BitVec.eq_of_toNat_eq
  rw [BitVec.toNat_ofNat, BitVec.toNat_ofInt]
  omega

/-! ### The quotient -/

section quotient
variable {a b : Value}

/-- An unsigned receiver's quotient in the form of R160. -/
theorem Value.quotient_of_unsigned (hu : a.uns = true) (hb : b.pat ≠ 0) :
    a.quotient b = Value.val (a.pat.toNat / b.pat.toNat : Nat) true := by
  rw [Value.quotient, if_pos hu, Machine.udiv64_spec a.pat.isLt (BitVec.toNat_pos_of_ne_zero hb), Value.val,
    BitVec.ofInt_natCast]

/-- A signed receiver's quotient in the form of R160; `MIN_VALUE` by -1 is 2^63, which wraps. -/
theorem Value.quotient_of_signed (hu : a.uns = false) (hb : b.pat ≠ 0) :
    a.quotient b = Value.val (a.num.tdiv (Value.ofPat b.pat false).num) false := by
  have dividend : Value.ofPat a.pat false = a := hu ▸ a.ofPat_pat
  have divisor : 0 < (Value.ofPat b.pat false).num.natAbs :=
    Int.natAbs_pos.2 (mt (Value.num_eq_zero_iff _).1 ((Value.pat_ofPat ..).symm ▸ hb))
  have range := Value.num_range_of_signed hu
  have bound : a.num.natAbs < 2 ^ 64 := by omega
  have fits := (Nat.div_le_self a.num.natAbs (Value.ofPat b.pat false).num.natAbs).trans_lt bound
  rw [Value.quotient, if_neg (by simp [hu]), a.magnitude_eq_natAbs, b.magnitude_eq_natAbs, a.topBit_eq_neg,
    b.topBit_eq_neg, dividend, Machine.udiv64_spec bound divisor, tdiv_eq_signed_floor]
  dsimp only
  split
  · rw [ofNat_neg_wrapped fits.le, Value.val]
  · rw [Value.val, BitVec.ofInt_natCast]

end quotient

/-! ### The remainder -/

/-- The remainder's composition from the quotient, in the form of R181. -/
theorem Value.modulo_eq_val (a b : Value) :
    a.modulo b = Value.val (a.pat.toNat - (a.quotient b).pat.toNat * b.pat.toNat) a.uns := by
  rw [Value.modulo, Value.subLimbs_eq_val, Value.mulLimbs_eq_val, Int.natCast_mul]
  exact Value.val_congr _ (Int.ModEq.rfl.sub (Value.val_pat_modEq ..))

section modulo
variable {a b : Value}

/-- An unsigned receiver's remainder: nothing in its composition wraps. -/
theorem Value.modulo_of_unsigned (hu : a.uns = true) (hb : b.pat ≠ 0) :
    a.modulo b = Value.val (a.pat.toNat % b.pat.toNat : Nat) true := by
  have fits : a.pat.toNat / b.pat.toNat < 2 ^ 64 := (Nat.div_le_self ..).trans_lt a.pat.isLt
  rw [Value.modulo_eq_val, Value.quotient_of_unsigned hu hb, Value.val_pat_of_lt true fits, hu, Int.natCast_emod,
    Int.emod_def, Int.natCast_ediv, mul_comm]

/-- A signed receiver's remainder: patterns and numbers agree modulo 2^64, so the wrapped quotient of `MIN_VALUE` by -1
gives the remainder of the truncated one too (R181). -/
theorem Value.modulo_of_signed (hu : a.uns = false) (hb : b.pat ≠ 0) :
    a.modulo b = Value.val (a.num.tmod (Value.ofPat b.pat false).num) false := by
  have divisor : (b.pat.toNat : Int) ≡ (Value.ofPat b.pat false).num [ZMOD 2 ^ 64] := by
    simpa using (Value.ofPat b.pat false).pat_modEq_num
  rw [Value.modulo_eq_val, Value.quotient_of_signed hu hb, hu, Int.tmod_def, mul_comm (Value.ofPat b.pat false).num]
  exact Value.val_congr _ (a.pat_modEq_num.sub ((Value.val_pat_modEq _ _).mul divisor))

end modulo

namespace Machine

/-! ### The answers with no error held -/

section ready
variable (a : Receiver) {b : Value} {s : State}

theorem exec_div_by_zero (ready : s.err = .none) (hb : b.pat = 0) :
    exec (.div a b) s = .next (s.raise .divisionByZero) := by
  rw [exec, execDiv, perform_ready ready, if_pos (b.isZero_iff.2 hb)]

theorem exec_mod_by_zero (ready : s.err = .none) (hb : b.pat = 0) :
    exec (.mod a b) s = .next (s.raise .divisionByZero) := by
  rw [exec, execMod, perform_ready ready, if_pos (b.isZero_iff.2 hb)]

theorem exec_div_ready (ready : s.err = .none) (hb : b.pat ≠ 0) :
    exec (.div a b) s = .next (s.writeRes ((receiver a s).quotient b)) := by
  rw [exec, execDiv, perform_ready ready, if_neg (mt b.isZero_iff.1 hb)]

theorem exec_mod_ready (ready : s.err = .none) (hb : b.pat ≠ 0) :
    exec (.mod a b) s = .next (s.writeRes ((receiver a s).modulo b)) := by
  rw [exec, execMod, perform_ready ready, if_neg (mt b.isZero_iff.1 hb)]

end ready

/-! ### The statements -/

/-- Settles O36: a zero divisor raises; any other writes the divider's quotient, which the receiver's flag makes the
floor (`Value.quotient_of_unsigned`) or the truncation (`Value.quotient_of_signed`). -/
theorem divTruncatesTowardZero : Obligations.DivTruncatesTowardZero := by
  refine fun a b s => ⟨(Laws.EncodedHeader.div a b).1, exec_div_by_zero a, fun ready hb hu => ?_,
    fun ready hb hu => ?_⟩
  · rw [exec_div_ready a ready hb, Value.quotient_of_unsigned hu hb, State.writeRes]
  · rw [exec_div_ready a ready hb, Value.quotient_of_signed hu hb, State.writeRes]

/-- Settles O37: a zero divisor raises; any other writes the remainder, for which each flag has its lemma
(`Value.modulo_of_unsigned`, `Value.modulo_of_signed`); the last clause is `Value.modulo_eq_val` at the quotient that DIV
leaves in `RES`. -/
theorem modIsTheTruncatedRemainder : Obligations.ModIsTheTruncatedRemainder := by
  refine fun a b s => ⟨(Laws.EncodedHeader.mod a b).1, exec_mod_by_zero a, fun ready hb hu => ?_,
    fun ready hb hu => ?_, fun ready hb => ?_⟩
  · rw [exec_mod_ready a ready hb, Value.modulo_of_unsigned hu hb, State.writeRes]
  · rw [exec_mod_ready a ready hb, Value.modulo_of_signed hu hb, State.writeRes]
  · exact ⟨_, _, exec_div_ready a ready hb, exec_mod_ready a ready hb, Value.modulo_eq_val ..⟩

end Machine
end Sys2Proof
end

section
/-! PROOF. The bitwise commands and the counts (44_bitwise_shift_rotate.md R190 to R202): the zero runs of the 64-bit
pattern, put together from the runs of its two words, what the six commands answer with no error held, and the
statements assembled from these and the tags. -/

namespace Sys2Proof.Machine

/-! ### The zero runs of a word and of a pattern -/

/-- The first `count` of `size` bits are zero, and the run ends at a set bit or with the last of them. -/
structure ZeroRun (bit : Nat → Bool) (size count : Nat) : Prop where
  bound : count ≤ size
  zeros : ∀ i, i < count → bit i = false
  stop : count < size → bit count = true

/-- A set bit ends the run before the last place. -/
theorem ZeroRun.lt_size {bit : Nat → Bool} {size count i : Nat} (run : ZeroRun bit size count) (hi : i < size)
    (set : bit i = true) : count < size := by
  refine Nat.lt_of_not_le fun full => ?_
  have zero : bit i = false := run.zeros i (by omega)
  simp [set] at zero

/-- Two words' runs make one run of 64 bits: the first word's where that word is not zero, and otherwise the second
word's after the 32 zeros of the first. -/
theorem ZeroRun.join {bit first second : Nat → Bool} {m k : Nat} {nonzero : Prop} [Decidable nonzero]
    (hfirst : ∀ i, i < 32 → bit i = first i) (hsecond : ∀ i, bit (32 + i) = second i)
    (run₁ : ZeroRun first 32 m) (run₂ : ZeroRun second 32 k)
    (ends : nonzero → m < 32) (passes : ¬ nonzero → ∀ i, first i = false) :
    ZeroRun bit 64 (if nonzero then m else 32 + k) := by
  split_ifs with word
  · have inside := ends word
    refine ⟨by omega, fun i hi => ?_, fun _ => ?_⟩
    · rw [hfirst i (by omega), run₁.zeros i hi]
    · rw [hfirst m inside, run₁.stop inside]
  · refine ⟨Nat.add_le_add_left run₂.bound 32, fun i hi => ?_, fun h => ?_⟩
    · rcases Nat.lt_or_ge i 32 with low | high
      · rw [hfirst i low, passes word i]
      · obtain ⟨j, rfl⟩ := Nat.exists_eq_add_of_le high
        rw [hsecond, run₂.zeros j (Nat.lt_of_add_lt_add_left hi)]
    · rw [hsecond, run₂.stop (Nat.lt_of_add_lt_add_left h)]

theorem clz32_zeroRun (w : Word) : ZeroRun (fun i => w.getLsbD (31 - i)) 32 (clz32 w) := by
  obtain ⟨bound, zeros, stop⟩ := zerosDown_spec w 32
  exact ⟨bound, zeros, stop⟩

theorem ctz32_zeroRun (w : Word) : ZeroRun (fun i => w.getLsbD i) 32 (ctz32 w) := by
  obtain ⟨bound, zeros, stop⟩ := zerosUp_spec w 32 le_rfl
  simp only [Nat.sub_self, Nat.zero_add] at zeros stop
  exact ⟨bound, zeros, stop⟩

theorem exists_bit_of_ne_zero {w : Word} (h : w ≠ 0) : ∃ i < 32, w.getLsbD i = true := by
  by_contra none
  refine h (BitVec.eq_of_getLsbD_eq fun i hi => ?_)
  have zero : w.getLsbD i = false := Bool.eq_false_iff.2 fun set => none ⟨i, hi, set⟩
  exact zero.trans BitVec.getLsbD_zero.symm

theorem getLsbD_of_not_ne_zero {w : Word} (h : ¬ w ≠ 0) (i : Nat) : w.getLsbD i = false := by
  rw [not_not.1 h]
  exact BitVec.getLsbD_zero

/-- CLZ's run over the pattern: `high` from its top bit down, then `low` (R200). -/
theorem clz64_zeroRun (v : Value) : ZeroRun (fun i => v.pat.getLsbD (63 - i)) 64 (clz64 v) := by
  refine .join (fun i hi => ?_) (fun i => ?_) (clz32_zeroRun v.high) (clz32_zeroRun v.low) (fun high => ?_)
    fun zero _ => getLsbD_of_not_ne_zero zero _
  · rw [Value.getLsbD_pat, if_neg (by omega), show 63 - i - 32 = 31 - i by omega]
  · rw [Value.getLsbD_pat, if_pos (by omega), show 63 - (32 + i) = 31 - i by omega]
  · obtain ⟨i, hi, set⟩ := exists_bit_of_ne_zero high
    have mirrored : v.high.getLsbD (31 - (31 - i)) = true := by rwa [Nat.sub_sub_self (by omega)]
    exact (clz32_zeroRun v.high).lt_size (by omega) mirrored

/-- CTZ's run over the pattern: `low` from its bottom bit up, then `high` (R201). -/
theorem ctz64_zeroRun (v : Value) : ZeroRun (fun i => v.pat.getLsbD i) 64 (ctz64 v) := by
  refine .join (fun i hi => ?_) (fun i => ?_) (ctz32_zeroRun v.low) (ctz32_zeroRun v.high) (fun low => ?_)
    fun zero _ => getLsbD_of_not_ne_zero zero _
  · rw [Value.getLsbD_pat, if_pos hi]
  · rw [Value.getLsbD_pat, if_neg (by omega), Nat.add_sub_cancel_left]
  · obtain ⟨i, hi, set⟩ := exists_bit_of_ne_zero low
    exact (ctz32_zeroRun v.low).lt_size hi set

/-! ### The answers with no error held -/

section ready
variable (a : Receiver) (b : Value) {s : State}

theorem exec_and_ready (ready : s.err = .none) :
    exec (.and a b) s = .next (s.writeRes ((receiver a s).andWords b)) := by
  rw [exec, execAnd, perform_ready ready]

theorem exec_or_ready (ready : s.err = .none) :
    exec (.or a b) s = .next (s.writeRes ((receiver a s).orWords b)) := by
  rw [exec, execOr, perform_ready ready]

theorem exec_xor_ready (ready : s.err = .none) :
    exec (.xor a b) s = .next (s.writeRes ((receiver a s).xorWords b)) := by
  rw [exec, execXor, perform_ready ready]

theorem exec_not_ready (ready : s.err = .none) :
    exec (.not a) s = .next (s.writeRes (receiver a s).notWords) := by
  rw [exec, execNot, perform_ready ready]

theorem exec_clz_ready (ready : s.err = .none) :
    exec (.clz a) s = .next (s.writeAux (BitVec.ofNat 32 (clz64 (receiver a s)))) := by
  rw [exec, execClz, perform_ready ready]

theorem exec_ctz_ready (ready : s.err = .none) :
    exec (.ctz a) s = .next (s.writeAux (BitVec.ofNat 32 (ctz64 (receiver a s)))) := by
  rw [exec, execCtz, perform_ready ready]

end ready

/-! ### The statements -/

/-- Settles O39: each command's one write, whose Value is the triple of the words' results and the receiver's flag. -/
theorem bitwiseCommandsActOnTheWords : Obligations.BitwiseCommandsActOnTheWords :=
  fun a b _ => ⟨(Laws.EncodedHeader.and a b).1, (Laws.EncodedHeader.or a b).1, (Laws.EncodedHeader.xor a b).1,
    (Laws.EncodedHeader.not a).1, fun ready =>
      ⟨exec_and_ready a b ready, exec_or_ready a b ready, exec_xor_ready a b ready, exec_not_ready a ready⟩⟩

/-- Settles O41: the count is `clz64`'s, and `clz64_zeroRun` says which run it measures. -/
theorem clzCountsTheZerosFromTheTop : Obligations.ClzCountsTheZerosFromTheTop := by
  refine fun a s => ⟨(Laws.EncodedHeader.clz a).1, fun ready => ?_⟩
  obtain ⟨bound, zeros, stop⟩ := clz64_zeroRun (receiver a s)
  exact ⟨_, exec_clz_ready a ready, bound, zeros, stop⟩

/-- Settles O42: the count is `ctz64`'s, and `ctz64_zeroRun` says which run it measures. -/
theorem ctzCountsTheZerosFromTheBottom : Obligations.CtzCountsTheZerosFromTheBottom := by
  refine fun a s => ⟨(Laws.EncodedHeader.ctz a).1, fun ready => ?_⟩
  obtain ⟨bound, zeros, stop⟩ := ctz64_zeroRun (receiver a s)
  exact ⟨_, exec_ctz_ready a ready, bound, zeros, stop⟩

end Sys2Proof.Machine
end

section
/-! PROOF. The shifts and rotates (44_bitwise_shift_rotate.md R205 to R221): the word formulas as `val` of arithmetic
on the pattern, SHR's fill bit for each setting of `ASR_UNSIGNED_FILL`, what the five commands answer with no error
held, and the statements assembled from these and the tags. -/

namespace Sys2Proof

theorem Value.eq_val_of_pat_toNat {v : Value} {n : Nat} (h : v.pat.toNat = n) : v = Value.val n v.uns := by
  refine Value.eq_val ?_
  rw [← h, BitVec.ofInt_natCast, BitVec.ofNat_toNat, BitVec.setWidth_eq]

/-! ### The logical shifts -/

theorem Value.shiftLeft_pat_toNat (v : Value) (n : Nat) :
    (v.shiftLeft n).pat.toNat = v.pat.toNat * 2 ^ n % 2 ^ 64 := by
  rw [Value.shiftLeft_pat, BitVec.toNat_shiftLeft, Nat.shiftLeft_eq]

theorem Value.shiftRightZero_pat_toNat (v : Value) (n : Nat) :
    (v.shiftRightZero n).pat.toNat = v.pat.toNat / 2 ^ n := by
  rw [Value.shiftRightZero_pat, BitVec.toNat_ushiftRight, Nat.shiftRight_eq_div_pow]

/-- SHL's Value in the form of R210: `val` does the reduction modulo 2^64. -/
theorem Value.shiftLeft_eq_val (v : Value) (n : Nat) :
    v.shiftLeft n = Value.val (v.pat.toNat * 2 ^ n : Nat) v.uns := by
  rw [Value.eq_val_of_pat_toNat (v.shiftLeft_pat_toNat n), Value.shiftLeft_uns]
  exact Value.val_congr _ (Int.natCast_modEq_iff.2 (Nat.mod_modEq _ _))

/-- SHRU's Value in the form of R211. -/
theorem Value.shiftRightZero_eq_val (v : Value) (n : Nat) :
    v.shiftRightZero n = Value.val (v.pat.toNat / 2 ^ n : Nat) v.uns := by
  rw [Value.eq_val_of_pat_toNat (v.shiftRightZero_pat_toNat n), Value.shiftRightZero_uns]

/-! ### The shift that fills -/

theorem Value.msb_pat (v : Value) : v.pat.msb = v.topBit := by
  rw [Bool.eq_iff_iff, Value.topBit_iff, BitVec.msb_eq_decide, decide_eq_true_iff]

/-- With fill bit 0, SHR's word formulas are SHRU's. -/
theorem Value.shiftRightFill_false (v : Value) (n : Nat) : v.shiftRightFill n false = v.shiftRightZero n := rfl

/-- Filled with its own top bit, a pattern is shifted arithmetically (R212). -/
theorem Value.shiftRightFill_topBit_pat (v : Value) (n : Nat) :
    (v.shiftRightFill n v.topBit).pat = v.pat.sshiftRight n := by
  refine BitVec.eq_of_getLsbD_eq fun i hi => ?_
  rw [Value.shiftRightFill_bit v n v.topBit id i hi, BitVec.getLsbD_sshiftRight, Value.msb_pat]
  simp [hi]

/-- A pattern with its top bit set comes down by `n` places under the number whose top `n` bits are set. -/
theorem sshiftRight_toNat_of_msb {p : Pattern} (top : p.msb = true) {n : Nat} (hn : n < 64) :
    (p.sshiftRight n).toNat = p.toNat / 2 ^ n + (2 ^ 64 - 2 ^ (64 - n)) := by
  have places : 2 ^ n * 2 ^ (64 - n) = 2 ^ 64 := by rw [← Nat.pow_add, Nat.add_sub_cancel' hn.le]
  have below : p.toNat < 2 ^ n * 2 ^ (64 - n) := places ▸ p.isLt
  have complement : (2 ^ 64 - 1 - p.toNat) / 2 ^ n = 2 ^ (64 - n) - (p.toNat / 2 ^ n + 1) := by
    rw [← places, Nat.sub_sub, Nat.add_comm 1, Nat.mul_sub_div _ _ _ below]
  have quotient : p.toNat / 2 ^ n < 2 ^ (64 - n) := Nat.div_lt_of_lt_mul below
  have fill : 2 ^ (64 - n) ≤ 2 ^ 64 := Nat.pow_le_pow_right Nat.two_pos (Nat.sub_le 64 n)
  rw [BitVec.toNat_sshiftRight_of_msb_true top, Nat.shiftRight_eq_div_pow, complement]
  generalize p.toNat / 2 ^ n = q, 2 ^ (64 - n) = m at quotient fill ⊢
  omega

/-- SHR's Value in the form of R212 with `f` the receiver's top bit. -/
theorem Value.shiftRightFill_topBit_eq_val (v : Value) {n : Nat} (hn : n < 64) :
    v.shiftRightFill n v.topBit =
      Value.val (v.pat.toNat / 2 ^ n + (if v.topBit = true then 2 ^ 64 - 2 ^ (64 - n) else 0) : Nat) v.uns := by
  cases top : v.topBit with
  | false => rw [Value.shiftRightFill_false, Value.shiftRightZero_eq_val, if_neg Bool.false_ne_true, Nat.add_zero]
  | true =>
    have number : (v.shiftRightFill n true).pat.toNat = v.pat.toNat / 2 ^ n + (2 ^ 64 - 2 ^ (64 - n)) := by
      rw [← top, Value.shiftRightFill_topBit_pat, sshiftRight_toNat_of_msb (v.msb_pat.trans top) hn]
    rw [Value.eq_val_of_pat_toNat number, Value.shiftRightFill_uns, if_pos rfl]

/-- The settings under which SHR fills with the top bit: any for a signed receiver, `sign` for an unsigned one. -/
theorem Value.fillBit_eq_topBit {v : Value} {c : Config} (h : v.uns = false ∨ c.asrUnsignedFill = .sign) :
    v.fillBit c = v.topBit := by
  unfold Value.fillBit
  split
  · rfl
  · rfl
  next hu hc => simp [hu, hc] at h

/-- An unsigned receiver under `zero` is filled with zeros. -/
theorem Value.fillBit_eq_false {v : Value} {c : Config} (hu : v.uns = true) (hc : c.asrUnsignedFill = .zero) :
    v.fillBit c = false := by
  rw [Value.fillBit, hu, hc]

/-! ### The rotates -/

theorem Value.rotateLeft_zero (v : Value) : v.rotateLeft 0 = v := rfl

theorem Value.rotateRight_zero (v : Value) : v.rotateRight 0 = v := rfl

/-- A join of words in numbers: the receiver's flag, and the or of the two patterns. -/
theorem Value.orWords_eq_val (a b : Value) : a.orWords b = Value.val (a.pat.toNat ||| b.pat.toNat : Nat) a.uns :=
  Value.eq_val_of_pat_toNat (by rw [Value.orWords_pat, BitVec.toNat_or])

/-- ROTL's Value in the form of R220. -/
theorem Value.rotateLeft_eq_val (v : Value) {n : Nat} (hn : n ≠ 0) :
    v.rotateLeft n =
      Value.val ((v.pat.toNat * 2 ^ n) % 2 ^ 64 ||| v.pat.toNat / 2 ^ (64 - n) : Nat) v.uns := by
  rw [Value.rotateLeft, if_neg hn, Value.orWords_eq_val, Value.shiftLeft_pat_toNat, Value.shiftRightZero_pat_toNat,
    Value.shiftLeft_uns]

/-- ROTR's Value in the form of R221. -/
theorem Value.rotateRight_eq_val (v : Value) {n : Nat} (hn : n ≠ 0) :
    v.rotateRight n =
      Value.val (v.pat.toNat / 2 ^ n ||| (v.pat.toNat * 2 ^ (64 - n)) % 2 ^ 64 : Nat) v.uns := by
  rw [Value.rotateRight, if_neg hn, Value.orWords_eq_val, Value.shiftLeft_pat_toNat, Value.shiftRightZero_pat_toNat,
    Value.shiftRightZero_uns]

namespace Machine

/-! ### The answers with no error held -/

section ready
variable (a : Receiver) (c : Nat) {s : State}

theorem exec_shl_ready (ready : s.err = .none) :
    exec (.shl a c) s = .next (s.writeRes ((receiver a s).shiftLeft (c % 64))) := by
  rw [exec, execShl, perform_ready ready, shiftCount]

theorem exec_shr_ready (ready : s.err = .none) :
    exec (.shr a c) s =
      .next (s.writeRes ((receiver a s).shiftRightFill (c % 64) ((receiver a s).fillBit s.cfg))) := by
  rw [exec, execShr, perform_ready ready, shiftCount]

theorem exec_shru_ready (ready : s.err = .none) :
    exec (.shru a c) s = .next (s.writeRes ((receiver a s).shiftRightZero (c % 64))) := by
  rw [exec, execShru, perform_ready ready, shiftCount]

theorem exec_rotl_ready (ready : s.err = .none) :
    exec (.rotl a c) s = .next (s.writeRes ((receiver a s).rotateLeft (c % 64))) := by
  rw [exec, execRotl, perform_ready ready, shiftCount]

theorem exec_rotr_ready (ready : s.err = .none) :
    exec (.rotr a c) s = .next (s.writeRes ((receiver a s).rotateRight (c % 64))) := by
  rw [exec, execRotr, perform_ready ready, shiftCount]

end ready

/-! ### The statements -/

/-- Settles O43: the Value written is the word-level left shift's, and `Value.shiftLeft_eq_val` says which it is. -/
theorem shlMultipliesThePattern : Obligations.ShlMultipliesThePattern := by
  refine fun a c s => ⟨(Laws.EncodedHeader.shl a c).1, fun ready => ?_⟩
  rw [exec_shl_ready a c ready, Value.shiftLeft_eq_val, State.writeRes]

/-- Settles O44: the Value written is the zero-filling shift's, and `Value.shiftRightZero_eq_val` says which it is. -/
theorem shruDividesThePattern : Obligations.ShruDividesThePattern := by
  refine fun a c s => ⟨(Laws.EncodedHeader.shru a c).1, fun ready => ?_⟩
  rw [exec_shru_ready a c ready, Value.shiftRightZero_eq_val, State.writeRes]

/-- Settles O45, by the fill bit: the top bit in the first clause, 0 in the second, where SHR is SHRU. -/
theorem shrFillsTheTopBits : Obligations.ShrFillsTheTopBits := by
  refine fun a c s => ⟨(Laws.EncodedHeader.shr a c).1, fun ready => ⟨fun signFilled => ?_, fun unsigned zero => ?_⟩⟩
  · rw [exec_shr_ready a c ready, Value.fillBit_eq_topBit signFilled,
      Value.shiftRightFill_topBit_eq_val _ (Nat.mod_lt c (by decide)), State.writeRes]
    rfl
  · rw [exec_shr_ready a c ready, Value.fillBit_eq_false unsigned zero, Value.shiftRightFill_false,
      Value.shiftRightZero_eq_val, unsigned, State.writeRes]

/-- Settles O47: at count 0 both rotates answer their receiver; at any other the Value written is the join of two
complementary shifts, and `Value.rotateLeft_eq_val` and `Value.rotateRight_eq_val` say which it is. -/
theorem rotatesJoinComplementaryShifts : Obligations.RotatesJoinComplementaryShifts := by
  refine fun a c s => ⟨(Laws.EncodedHeader.rotl a c).1, (Laws.EncodedHeader.rotr a c).1, fun ready still => ?_,
    fun ready turned => ?_⟩
  · rw [exec_rotl_ready a c ready, exec_rotr_ready a c ready, still, Value.rotateLeft_zero, Value.rotateRight_zero,
      State.writeRes]
    exact ⟨rfl, rfl⟩
  · rw [exec_rotl_ready a c ready, exec_rotr_ready a c ready, Value.rotateLeft_eq_val _ turned,
      Value.rotateRight_eq_val _ turned, State.writeRes, State.writeRes]
    exact ⟨rfl, rfl⟩

end Machine
end Sys2Proof
end

section
/-! PROOF. The comparison tree (45_comparison.md R231, R235): when `equal` answers true, the words that `compare` puts
into `AUX` in each of its cases, what CMP answers with no error held, and the statements assembled from these and the
tags. -/

namespace Sys2Proof

/-- The condition of R231: the exception at the top bit does not apply, and both words agree. -/
theorem Value.equal_iff (a b : Value) :
    a.equal b = true ↔
      ¬ (a.uns ≠ b.uns ∧ a.high.getLsbD 31 = true ∧ b.high.getLsbD 31 = true) ∧ a.low = b.low ∧ a.high = b.high := by
  have test : (a.uns != b.uns && a.topBit && b.topBit) = true ↔
      a.uns ≠ b.uns ∧ a.high.getLsbD 31 = true ∧ b.high.getLsbD 31 = true := by
    rw [Bool.and_eq_true, Bool.and_eq_true, bne_iff_ne, and_assoc, Value.topBit, Value.topBit]
  rw [Value.equal, ← test]
  split
  next exception => simp only [exception, Bool.false_eq_true, not_true_eq_false, false_and]
  next unexceptional =>
    simp only [unexceptional, Bool.and_eq_true, beq_iff_eq, Bool.false_eq_true, not_false_eq_true, true_and]

/-- The order of case (5) of R235. -/
theorem Value.wordsBelow_iff (a b : Value) :
    a.wordsBelow b = true ↔ a.high.toNat < b.high.toNat ∨ a.high = b.high ∧ a.low.toNat < b.low.toNat := by
  simp only [Value.wordsBelow, Bool.or_eq_true, Bool.and_eq_true, decide_eq_true_eq, beq_iff_eq]

/-- Case (5) of R235 as the word in `AUX`. -/
theorem Value.wordsBelow_word (a b : Value) :
    BitVec.ofInt 32 (if a.wordsBelow b then -1 else 1) =
      if a.high.toNat < b.high.toNat ∨ a.high = b.high ∧ a.low.toNat < b.low.toNat then 0xFFFFFFFF else 0x00000001 := by
  simp only [Value.wordsBelow_iff, apply_ite (BitVec.ofInt 32)]
  rfl

/-- Cases (4) and (6) of R235 as the word in `AUX`: the sign that the adder's difference has is bit 63 of the pattern
difference. -/
theorem Value.diffSign_word (a b : Value) :
    BitVec.ofInt 32 (a.diffSign b) = if (a.pat - b.pat).getLsbD 63 = true then 0xFFFFFFFF else 0x00000001 := by
  have sign : (a.subLimbs b).topBit = (a.pat - b.pat).getLsbD 63 := by
    rw [← Value.msb_pat, Value.subLimbs_pat, BitVec.msb_eq_getLsbD_last]
  rw [Value.diffSign, sign, apply_ite (BitVec.ofInt 32)]
  rfl

/-- Case (1) of R235. -/
theorem Value.compare_of_equal {a b : Value} (equal : a.equal b = true) : a.compare b = 0 := if_pos equal

/-- Cases (2) to (6) of R235 as the word in `AUX`. -/
theorem Value.compare_word_of_not_equal {a b : Value} (unequal : ¬ a.equal b = true) :
    BitVec.ofInt 32 (a.compare b) =
      if a.isNeg = true ∧ b.isNeg = false then 0xFFFFFFFF
      else if b.isNeg = true ∧ a.isNeg = false then 0x00000001
      else if a.isNeg = true ∧ b.isNeg = true then BitVec.ofInt 32 (a.diffSign b)
      else if a.uns = true ∨ b.uns = true then BitVec.ofInt 32 (if a.wordsBelow b then -1 else 1)
      else BitVec.ofInt 32 (a.diffSign b) := by
  rw [Value.compare, if_neg unequal]
  cases ha : a.isNeg <;> cases hb : b.isNeg
  case true.false => rfl
  case false.true => rfl
  case true.true => rfl
  case false.false => simp [apply_ite (BitVec.ofInt 32)]

namespace Machine

/-! ### The answers with no error held -/

section ready
variable (a : Receiver) (b : Value) {s : State}

theorem exec_cmp_ready (ready : s.err = .none) :
    exec (.cmp a b) s = .next (s.writeAux (BitVec.ofInt 32 ((receiver a s).compare b))) := by
  rw [exec, execCmp, perform_ready ready]

/-- EQ's own answer tells whether `equal` holds, whatever `AUX` held before. -/
theorem exec_eq_one_iff (ready : s.err = .none) :
    exec (.eq a b) s = .next { s with aux := 1 } ↔ (receiver a s).equal b = true := by
  rw [exec_eq_ready a b ready]
  constructor
  · intro answer
    have word : (if (receiver a s).equal b then 1 else 0 : Word) = 1 :=
      congrArg State.aux (Host.Outcome.next.inj answer)
    by_contra unequal
    rw [if_neg unequal] at word
    exact absurd word (by decide)
  · intro equal
    rw [if_pos equal, State.writeAux]

end ready

/-! ### The statements -/

/-- Settles O49: EQ writes the answer of `equal`, which `Value.equal_iff` makes 0 in the first clause and the agreement
of the words in the second. -/
theorem eqComparesFlagsAndWords : Obligations.EqComparesFlagsAndWords := by
  refine fun a b s => ⟨(Laws.EncodedHeader.eq a b).1, fun ready => ⟨fun exception => ?_, fun unexceptional => ?_⟩⟩
  · have unequal : ¬ (receiver a s).equal b = true := fun equal => ((Value.equal_iff _ _).mp equal).1 exception
    rw [exec_eq_ready a b ready, if_neg unequal, State.writeAux]
  · have agreement : (receiver a s).equal b = true ↔ (receiver a s).low = b.low ∧ (receiver a s).high = b.high :=
      (Value.equal_iff _ _).trans (and_iff_right unexceptional)
    rw [exec_eq_ready a b ready, State.writeAux]
    simp only [agreement]

/-- Settles O51: EQ's answer decides between case (1) and the others, whose words `Value.compare_word_of_not_equal`
gives. -/
theorem cmpTakesTheFirstCaseThatApplies : Obligations.CmpTakesTheFirstCaseThatApplies := by
  refine fun a b s => ⟨(Laws.EncodedHeader.cmp a b).1, fun ready => ⟨fun one => ?_, fun notOne => ?_⟩⟩
  · have equal := (exec_eq_one_iff a b ready).mp one
    rw [exec_cmp_ready a b ready, Value.compare_of_equal equal, State.writeAux]
    rfl
  · have unequal := mt (exec_eq_one_iff a b ready).mpr notOne
    rw [exec_cmp_ready a b ready, Value.compare_word_of_not_equal unequal, Value.diffSign_word, Value.wordsBelow_word,
      State.writeAux]

end Machine
end Sys2Proof
end

section
/-! PROOF. The digit string (46_string_conversion.md R250 to R256): the magnitude the pipeline divides is the absolute
value of the receiver's number, its digit list has the length and the entries R250 asks for, `DIG` holds that list, and
the statement about TOSTR is assembled from these and the tag. -/

namespace Sys2Proof

/-- The magnitude of R256 is the absolute value of the number, under either flag. -/
theorem Value.magnitude_isNeg (v : Value) : v.magnitude v.isNeg = v.num.natAbs := by
  have hp := v.pat.isLt
  have sign := v.isNeg_iff
  rw [Value.magnitude]
  rcases v.num_cases with ⟨-, hn⟩ | ⟨-, -, hn⟩ | ⟨-, high, hn⟩
  · rw [if_neg (mt sign.1 (by omega))]
    omega
  · rw [if_neg (mt sign.1 (by omega))]
    omega
  · rw [if_pos (sign.2 (by omega))]
    omega

theorem Value.num_natAbs_lt (v : Value) : v.num.natAbs < 2 ^ 64 := by
  have hp := v.pat.isLt
  rcases v.num_cases with ⟨-, hn⟩ | ⟨-, -, hn⟩ | ⟨-, high, hn⟩ <;> omega

namespace Machine

/-! ### The digit list of a magnitude -/

section digitsOf
variable {m r : Nat}

theorem length_digitsOf_zero (hr : 2 ≤ r) : (digitsOf 0 r).length = 1 := by
  rw [digitsOf_zero hr, List.length_singleton]

theorem length_digitsOf_pos (hr : 2 ≤ r) (hm : 0 < m) (hb : m < 2 ^ 64) :
    (digitsOf m r).length = (Nat.digits r m).length := by
  rw [digitsOf_pos hr hm hb, List.length_reverse]

/-- 64 digits are enough for every magnitude and radix (R251). -/
theorem length_digitsOf_le (hr : 2 ≤ r) (hb : m < 2 ^ 64) : (digitsOf m r).length ≤ 64 := by
  rcases Nat.eq_zero_or_pos m with rfl | hm
  · rw [length_digitsOf_zero hr]
    decide
  · rw [length_digitsOf_pos hr hm hb, Nat.digits_length_le_iff hr]
    exact hb.trans_le (Nat.pow_le_pow_left hr 64)

/-- The length of the list is pinned by the powers of the radix on both sides of the magnitude. -/
theorem length_digitsOf_bounds (hr : 2 ≤ r) (hm : 0 < m) (hb : m < 2 ^ 64) :
    1 ≤ (digitsOf m r).length ∧ r ^ ((digitsOf m r).length - 1) ≤ m ∧ m < r ^ (digitsOf m r).length := by
  have one_le : 1 ≤ (Nat.digits r m).length :=
    List.length_pos_iff.2 (Nat.digits_ne_nil_iff_ne_zero.2 hm.ne')
  rw [length_digitsOf_pos hr hm hb]
  refine ⟨one_le, ?_, Nat.lt_base_pow_length_digits hr⟩
  rw [← Nat.lt_digits_length_iff hr]
  omega

/-- The digit at place `i` from the left has the weight `r ^ (length - 1 - i)` (R250). -/
theorem digitsOf_getElem (hr : 2 ≤ r) (hb : m < 2 ^ 64) (i : Nat) (hi : i < (digitsOf m r).length) :
    (digitsOf m r)[i] = m / r ^ ((digitsOf m r).length - 1 - i) % r := by
  rcases Nat.eq_zero_or_pos m with rfl | hm
  · simp [digitsOf_zero hr]
  · have reversed := digitsOf_pos hr hm hb
    simp only [reversed, List.length_reverse, List.getElem_reverse]
    rw [← Nat.getD_digits m _ hr, List.getD_eq_getElem]

end digitsOf

/-! ### The digit list in `DIG` -/

section ofDigits
variable (neg : Bool) {ds : List Nat}

theorem DigitString.ofDigits_len_toNat (fits : ds.length ≤ 64) : (DigitString.ofDigits neg ds).len.toNat = ds.length :=
  (BitVec.toNat_ofNat ..).trans (Nat.mod_eq_of_lt (by omega))

theorem DigitString.ofDigits_digit_toNat (i : Fin 64) (hi : i.val < ds.length) (fits : ds[i.val] < 64) :
    (DigitString.ofDigits neg ds).digits[i].toNat = ds[i.val] := by
  rw [DigitString.ofDigits_digit, List.getElem?_map, List.getElem?_eq_getElem hi]
  exact (BitVec.toNat_ofNat ..).trans (Nat.mod_eq_of_lt fits)

theorem DigitString.ofDigits_digit_beyond (i : Fin 64) (hi : ds.length ≤ i.val) :
    (DigitString.ofDigits neg ds).digits[i] = 0 := by
  rw [DigitString.ofDigits_digit, List.getElem?_map, List.getElem?_eq_none hi]
  rfl

end ofDigits

/-! ### The digit string of a Value -/

section toDigits
variable (v : Value) {r : Nat}

theorem toDigits_eq : toDigits v r = .ofDigits v.isNeg (digitsOf v.num.natAbs r) := by
  rw [toDigits, v.magnitude_isNeg]

theorem toDigits_neg_iff : (toDigits v r).neg = true ↔ v.num < 0 := v.isNeg_iff

/-- `LEN` is the length of the digit list, which its seven bits hold. -/
theorem toDigits_len (hr : 2 ≤ r) : (toDigits v r).len.toNat = (digitsOf v.num.natAbs r).length := by
  rw [toDigits_eq, DigitString.ofDigits_len_toNat _ (length_digitsOf_le hr v.num_natAbs_lt)]

/-- A place below `LEN` holds its digit: it is below the radix, so its six bits hold it. -/
theorem toDigits_digit (hr : 2 ≤ r) (hr' : r ≤ 36) (i : Fin 64) (hi : i.val < (toDigits v r).len.toNat) :
    (toDigits v r).digits[i].toNat = v.num.natAbs / r ^ ((toDigits v r).len.toNat - 1 - i.val) % r := by
  rw [toDigits_len v hr] at hi ⊢
  have digit := digitsOf_getElem hr v.num_natAbs_lt i.val hi
  have below : (digitsOf v.num.natAbs r)[i.val] < r := digit ▸ Nat.mod_lt _ (by omega)
  rw [toDigits_eq, DigitString.ofDigits_digit_toNat _ i hi (by omega), digit]

theorem toDigits_digit_beyond (hr : 2 ≤ r) (i : Fin 64) (hi : (toDigits v r).len.toNat ≤ i.val) :
    (toDigits v r).digits[i] = 0 := by
  rw [toDigits_len v hr] at hi
  rw [toDigits_eq, DigitString.ofDigits_digit_beyond _ i hi]

end toDigits

/-! ### The answers with no error held -/

section ready
variable (a : Receiver) {r : Nat} {s : State}

/-- The radix test of R250. -/
theorem radixLegal_iff : radixLegal r = true ↔ 2 ≤ r ∧ r ≤ 36 := by
  rw [radixLegal, Bool.and_eq_true, decide_eq_true_iff, decide_eq_true_iff]

theorem exec_toStr_illegal_radix (ready : s.err = .none) (hr : r < 2 ∨ 36 < r) :
    exec (.toStr a r) s = .next (s.raise .invalidRadix) := by
  rw [exec, execToStr, perform_ready ready, if_neg (mt radixLegal_iff.1 (by omega))]

theorem exec_toStr_ready (ready : s.err = .none) (hr : 2 ≤ r) (hr' : r ≤ 36) :
    exec (.toStr a r) s = .next (s.writeDig (toDigits (receiver a s) r)) := by
  rw [exec, execToStr, perform_ready ready, if_pos (radixLegal_iff.2 ⟨hr, hr'⟩)]

end ready

/-! ### The statements -/

/-- Settles O54: a radix outside the range raises; a legal one writes the receiver's digit string, whose sign, length and
places have their lemmas (`toDigits_neg_iff`, `toDigits_len`, `toDigits_digit`, `toDigits_digit_beyond`). -/
theorem toStrExtractsTheDigits : Obligations.ToStrExtractsTheDigits := by
  refine fun a r s => ⟨(Laws.EncodedHeader.toStr a r).1, exec_toStr_illegal_radix a, fun ready hr hr' => ?_⟩
  refine ⟨toDigits (receiver a s) r, exec_toStr_ready a ready hr hr', toDigits_neg_iff _, fun zero => ?_,
    fun nonzero => ?_, toDigits_digit _ hr hr', toDigits_digit_beyond _ hr⟩
  · rw [toDigits_len _ hr, zero, Int.natAbs_zero, length_digitsOf_zero hr]
  · have bound := (receiver a s).num_natAbs_lt
    obtain ⟨one_le, below, above⟩ := length_digitsOf_bounds hr (Int.natAbs_pos.2 nonzero) bound
    rw [toDigits_len _ hr]
    exact ⟨one_le, length_digitsOf_le hr bound, below, above⟩

end Machine
end Sys2Proof
end

section
/-! PROOF. The byte lanes (47_byte_serialization.md R271 to R277): a word put together from four bytes as their weighted
sum, the lanes of either layout by index, what FROMBYTES and TOBYTES answer with no error held, and the statements
assembled from these and the tags. -/

namespace Sys2Proof

open Machine

/-- Putting a byte below a bit vector moves the vector up eight places. -/
theorem toNat_append_byte {n : Nat} (x : BitVec n) (b : Byte) : (x ++ b).toNat = x.toNat * 2 ^ 8 + b.toNat := by
  rw [BitVec.toNat_append, ← Nat.shiftLeft_add_eq_or_of_lt b.isLt, Nat.shiftLeft_eq]

/-- `b3:b2:b1:b0` is the weighted sum of the bytes (R274). -/
theorem wordOfBytes_eq_ofNat (b3 b2 b1 b0 : Byte) :
    wordOfBytes b3 b2 b1 b0 =
      BitVec.ofNat 32 (b3.toNat * 2 ^ 24 + b2.toNat * 2 ^ 16 + b1.toNat * 2 ^ 8 + b0.toNat) := by
  have sum : (wordOfBytes b3 b2 b1 b0).toNat = b3.toNat * 2 ^ 24 + b2.toNat * 2 ^ 16 + b1.toNat * 2 ^ 8 + b0.toNat := by
    calc (b3 ++ b2 ++ b1 ++ b0).toNat
        = ((b3.toNat * 2 ^ 8 + b2.toNat) * 2 ^ 8 + b1.toNat) * 2 ^ 8 + b0.toNat := by
          rw [toNat_append_byte, toNat_append_byte, toNat_append_byte]
      _ = _ := by ring
  rw [← sum, BitVec.ofNat_toNat, BitVec.setWidth_eq]

namespace Machine

/-! ### The lanes -/

section lanes
variable (p : Pattern) (i : Fin 8)

/-- The little-endian layout puts byte `i` of the pattern in lane `i` (R272). -/
theorem lanesLE_getElem : (lanesLE p)[i] = byteLane p i := by
  have layout : lanesLE p = Vector.ofFn fun j : Fin 8 => byteLane p j := rfl
  rw [layout, Fin.getElem_fin, Vector.getElem_ofFn]

/-- The big-endian layout counts the bytes of the pattern from the other end (R273). -/
theorem lanesBE_getElem : (lanesBE p)[i] = byteLane p (7 - i) := by
  have layout : lanesBE p = Vector.ofFn fun j : Fin 8 => byteLane p (7 - j) := rfl
  rw [layout, Fin.getElem_fin, Vector.getElem_ofFn]

end lanes

/-! ### The words put together from the input bytes -/

section words
variable (v : Value) (u : Bool)

/-- The little-endian Value of the input bytes: lanes 3 to 0 make `low`, lanes 7 to 4 make `high` (R271, R274). -/
theorem ofBytesLE_inputBytes : Value.ofBytesLE (inputBytes v) u =
    ⟨wordOfBytes (byteLane v.pat 3) (byteLane v.pat 2) (byteLane v.pat 1) (byteLane v.pat 0),
      wordOfBytes (byteLane v.pat 7) (byteLane v.pat 6) (byteLane v.pat 5) (byteLane v.pat 4), u⟩ := rfl

/-- The big-endian Value of the input bytes: lanes 4 to 7 make `low`, lanes 0 to 3 make `high` (R271, R275). -/
theorem ofBytesBE_inputBytes : Value.ofBytesBE (inputBytes v) u =
    ⟨wordOfBytes (byteLane v.pat 4) (byteLane v.pat 5) (byteLane v.pat 6) (byteLane v.pat 7),
      wordOfBytes (byteLane v.pat 0) (byteLane v.pat 1) (byteLane v.pat 2) (byteLane v.pat 3), u⟩ := rfl

end words

/-! ### The answers with no error held -/

section ready
variable (a : Receiver) {s : State}

theorem exec_fromBytesLE_ready (ready : s.err = .none) : exec (.fromBytesLE a) s =
    .next (s.writeRes (.ofBytesLE (inputBytes (receiver a s)) (receiver a s).uns)) := by
  rw [exec, execFromBytesLE, perform_ready ready]

theorem exec_fromBytesBE_ready (ready : s.err = .none) : exec (.fromBytesBE a) s =
    .next (s.writeRes (.ofBytesBE (inputBytes (receiver a s)) (receiver a s).uns)) := by
  rw [exec, execFromBytesBE, perform_ready ready]

theorem exec_toBytesLE_ready (ready : s.err = .none) :
    exec (.toBytesLE a) s = .next (s.writeByt (lanesLE (receiver a s).pat)) := by
  rw [exec, execToBytesLE, perform_ready ready]

theorem exec_toBytesBE_ready (ready : s.err = .none) :
    exec (.toBytesBE a) s = .next (s.writeByt (lanesBE (receiver a s).pat)) := by
  rw [exec, execToBytesBE, perform_ready ready]

end ready

/-! ### The statements -/

/-- Settles O57: each layout says which lanes make which word, and `wordOfBytes_eq_ofNat` turns a word into the sum. -/
theorem fromBytesAssemblesTheWords : Obligations.FromBytesAssemblesTheWords := by
  refine fun a s => ⟨(Laws.EncodedHeader.fromBytesLE a).1, (Laws.EncodedHeader.fromBytesBE a).1,
    fun ready => ⟨?_, ?_⟩⟩
  · rw [exec_fromBytesLE_ready a ready, ofBytesLE_inputBytes, wordOfBytes_eq_ofNat, wordOfBytes_eq_ofNat,
      State.writeRes]
    simp only [byteLane]
  · rw [exec_fromBytesBE_ready a ready, ofBytesBE_inputBytes, wordOfBytes_eq_ofNat, wordOfBytes_eq_ofNat,
      State.writeRes]
    simp only [byteLane]

/-- Settles O58: the bytes written are the layout's own, and `lanesLE_getElem` and `lanesBE_getElem` read each lane. -/
theorem toBytesWritesTheLanes : Obligations.ToBytesWritesTheLanes :=
  fun a _ => ⟨(Laws.EncodedHeader.toBytesLE a).1, (Laws.EncodedHeader.toBytesBE a).1, fun ready =>
    ⟨⟨_, exec_toBytesLE_ready a ready, lanesLE_getElem _⟩, ⟨_, exec_toBytesBE_ready a ready, lanesBE_getElem _⟩⟩⟩

end Machine
end Sys2Proof
end

section
/-! PROOF. The round trip of the encoder and the decoder (30_encoding.md R70 to R78) and the fields a command does not
read (R76): what the decoder finds in each of the encoder's three packet forms, and the command that holds nothing but
the fields its meaning reads, in whose place any other with these fields can stand. -/

namespace Sys2Proof

open Machine

/-! ### Decode after encode -/

section packetForms
variable (op : BitVec 6) (a : Receiver) (b : Value)

@[simp] theorem packetOne_op : (packetOne op a).op = op := packetOf_op ..
@[simp] theorem packetOne_rsv : (packetOne op a).rsv = 0 := packetOf_rsv ..
@[simp] theorem packetOne_receiver : (packetOne op a).receiver = a := packetOf_receiver ..

@[simp] theorem packetTwo_op : (packetTwo op a b).op = op := packetOf_op ..
@[simp] theorem packetTwo_rsv : (packetTwo op a b).rsv = 0 := packetOf_rsv ..
@[simp] theorem packetTwo_receiver : (packetTwo op a b).receiver = a := packetOf_receiver ..
@[simp] theorem packetTwo_other : (packetTwo op a b).other = b := packetOf_other ..

@[simp] theorem packetPlain_op (n : Nat) : (packetPlain op a n).op = op := packetOf_op ..
@[simp] theorem packetPlain_rsv (n : Nat) : (packetPlain op a n).rsv = 0 := packetOf_rsv ..
@[simp] theorem packetPlain_receiver (n : Nat) : (packetPlain op a n).receiver = a := packetOf_receiver ..

/-- `B_LOW` holds every bit of an integer that fits it (R78). -/
theorem packetPlain_plain {n : Nat} (fits : fitsField n = true) : (packetPlain op a n).plain = n := by
  rw [Packet.plain, packetPlain, packetOf_w3, BitVec.toNat_ofNat]
  exact Nat.mod_eq_of_lt (of_decide_eq_true fits)

end packetForms

/-- Settles O3, by the form of the command's packet: the decoder finds the command's tag in `OP`, zero in `RSV`, and
each operand in its slot; a plain integer is found because it fits `B_LOW`. -/
theorem decodeOfEncodeIsTheCommand : Obligations.DecodeOfEncodeIsTheCommand := by
  intro i fits
  cases i with
  | clrErr => rfl
  | add | sub | mul | div | mod | and | or | xor | eq | cmp =>
    rw [encode, decode_of_rsv_zero (packetTwo_rsv ..), decodeTag, packetTwo_op, packetTwo_receiver, packetTwo_other]
    rfl
  | shl | shr | shru | rotl | rotr | toStr =>
    rw [encode, decode_of_rsv_zero (packetPlain_rsv ..), decodeTag, packetPlain_op, packetPlain_receiver,
      packetPlain_plain _ _ fits]
    rfl
  | _ =>
    rw [encode, decode_of_rsv_zero (packetOne_rsv ..), decodeTag, packetOne_op, packetOne_receiver]
    rfl

/-- A legal packet has no reserved bit set, and its command comes from the tag map (R73). -/
theorem decode_ok {p : Packet} {i : Instr} (h : decode p = .ok i) : p.rsv = 0 ∧ decodeTag p = .ok i := by
  have rsv := ((decode_ok_iff p).1 ⟨i, h⟩).1
  exact ⟨rsv, decode_of_rsv_zero rsv ▸ h⟩

/-- The command of a legal packet has its tag and fits a packet. -/
theorem decode_ok_tag_wellFormed {p : Packet} {i : Instr} (h : decode p = .ok i) :
    i.tag = p.op ∧ i.wellFormed = true := by
  obtain ⟨tag, fits, -⟩ := decodeTag_ok (decode_ok h).2
  exact ⟨tag, fits⟩

/-- Settles O4: the command fits a packet, so its own packet decodes to it, and that packet, being legal, has the
command's tag and no reserved bit. -/
theorem decodedCommandIsWellFormed : Obligations.DecodedCommandIsWellFormed := by
  intro p i h
  obtain ⟨tag, fits⟩ := decode_ok_tag_wellFormed h
  have back : decode (encode i) = .ok i := decodeOfEncodeIsTheCommand i fits
  exact ⟨fits, tag, (decode_ok_tag_wellFormed back).1.symm.trans tag, (decode_ok back).1, back⟩

/-- Settles O6: the seven packets, decoded. -/
theorem workedEncodingsDecode : Obligations.WorkedEncodingsDecode := by
  unfold Obligations.WorkedEncodingsDecode
  decide

namespace Machine

/-! ### The fields a command reads -/

/-- The command in the state `s` with its receiver selected and zero in every field that the last column of R75 does not
list for it. -/
def readFields (s : State) : Instr → Instr
  | .fromInt a => .fromInt (.lit ⟨(receiver a s).low, 0, (receiver a s).uns⟩)
  | .toInt a => .toInt (.lit ⟨(receiver a s).low, 0, false⟩)
  | .toUnsigned a => .toUnsigned (.lit ⟨(receiver a s).low, (receiver a s).high, false⟩)
  | .toSigned a => .toSigned (.lit ⟨(receiver a s).low, (receiver a s).high, false⟩)
  | .toBytesLE a => .toBytesLE (.lit ⟨(receiver a s).low, (receiver a s).high, false⟩)
  | .toBytesBE a => .toBytesBE (.lit ⟨(receiver a s).low, (receiver a s).high, false⟩)
  | .clz a => .clz (.lit ⟨(receiver a s).low, (receiver a s).high, false⟩)
  | .ctz a => .ctz (.lit ⟨(receiver a s).low, (receiver a s).high, false⟩)
  | .add a b => .add (.lit (receiver a s)) ⟨b.low, b.high, false⟩
  | .sub a b => .sub (.lit (receiver a s)) ⟨b.low, b.high, false⟩
  | .mul a b => .mul (.lit (receiver a s)) ⟨b.low, b.high, false⟩
  | .div a b => .div (.lit (receiver a s)) ⟨b.low, b.high, false⟩
  | .mod a b => .mod (.lit (receiver a s)) ⟨b.low, b.high, false⟩
  | .and a b => .and (.lit (receiver a s)) ⟨b.low, b.high, false⟩
  | .or a b => .or (.lit (receiver a s)) ⟨b.low, b.high, false⟩
  | .xor a b => .xor (.lit (receiver a s)) ⟨b.low, b.high, false⟩
  | .shl a count => .shl (.lit (receiver a s)) (count % 64)
  | .shr a count => .shr (.lit (receiver a s)) (count % 64)
  | .shru a count => .shru (.lit (receiver a s)) (count % 64)
  | .rotl a count => .rotl (.lit (receiver a s)) (count % 64)
  | .rotr a count => .rotr (.lit (receiver a s)) (count % 64)
  | i => literalTwin s i

/-- A count acts by its lowest six bits (R78). -/
@[simp] theorem shiftCount_mod (count : Nat) : shiftCount (count % 64) = shiftCount count := Nat.mod_mod ..

/-- The fields that `readFields` clears have no effect (R76). -/
theorem exec_readFields (i : Instr) (s : State) : exec (readFields s i) s = exec i s := by
  have twin := exec_literalTwin i s
  cases i with
  | shl | shr | shru | rotl | rotr =>
    simp only [exec, readFields, execShl, execShr, execShru, execRotl, execRotr, shiftCount_mod]
    exact perform_congr rfl
  | fromInt | toInt | toUnsigned | toSigned | toBytesLE | toBytesBE | clz | ctz
  | add | sub | mul | div | mod | and | or | xor =>
    simp only [exec, readFields]
    exact perform_congr rfl
  | _ => exact twin

/-- The count of R78 is the number in `B_LOW[5:0]`. -/
theorem plain_mod_of_extract_eq {p q : Packet} (h : p.w3.extractLsb' 0 6 = q.w3.extractLsb' 0 6) :
    p.plain % 64 = q.plain % 64 := by
  have bits := congrArg BitVec.toNat h
  rwa [BitVec.extractLsb'_toNat, BitVec.extractLsb'_toNat, Nat.shiftRight_zero, Nat.shiftRight_zero] at bits

/-- Two packets with the tag `t` that agree on the fields listed for it have one command, once the fields it does not
read are cleared. -/
theorem decodeTag_readFields {p q : Packet} {s : State} {t : BitVec 6} (assigned : t ∈ assignedTags) (hp : p.op = t)
    (hq : q.op = t) (agree : readsAgree t p q s) :
    (decodeTag p).map (readFields s) = (decodeTag q).map (readFields s) := by
  obtain ⟨whole, lowAndFlag, low, words, otherWords, lowBits, other, radixWord⟩ := agree
  have count := fun h => plain_mod_of_extract_eq (lowBits h)
  have radix : t = 0x38 → p.plain = q.plain := fun h => congrArg BitVec.toNat (radixWord h)
  clear lowBits radixWord
  simp only [decodeTag, hp, hq]
  fin_cases assigned
  all_goals simp_all [Except.map, readFields, literalTwin, Packet.other]

/-- Settles O8: a legal packet does what its command does with the unread fields cleared, and that command is the same
for both packets. -/
theorem fieldsACommandDoesNotReadAreIgnored : Obligations.FieldsACommandDoesNotReadAreIgnored := by
  rintro p q s ⟨i, hi⟩ op rsv agree
  obtain ⟨pRsv, assigned⟩ := (decode_ok_iff p).1 ⟨i, hi⟩
  have qAssigned : q.op ∈ assignedTags := op ▸ assigned
  obtain ⟨j, hj⟩ := (decode_ok_iff q).2 ⟨rsv.trans pRsv, qAssigned⟩
  have same := decodeTag_readFields assigned rfl op agree
  rw [(decode_ok hi).2, (decode_ok hj).2] at same
  have command : readFields s i = readFields s j := Except.ok.inj same
  rw [performPacket_ok hi, performPacket_ok hj, ← exec_readFields i, ← exec_readFields j, command]

end Machine
end Sys2Proof
end

section
/-! PROOF. The system command, the frame of every command and the error kinds (48_system.md R280, 60_exceptions.md R320
to R331), and the order of deliveries (20_memory.md R55): what a packet, legal or not, can do, what a step answers, and
that no command reads the deliveries behind it. -/

namespace Sys2Proof.Machine

/-! ### CLRERR and the latch -/

/-- Settles O16: CLRERR's meaning stands outside the latch and writes `ERR` alone. -/
theorem clrErrClearsOnlyTheLatch : Obligations.ClrErrClearsOnlyTheLatch :=
  ⟨Laws.EncodedHeader.clrErr.1, fun _ => rfl⟩

/-- R331: while an error is held, a packet that is not a legal CLRERR is dropped, before it is looked at. -/
theorem performPacket_held {p : Packet} {s : State} (held : s.err ≠ .none) (other : decode p ≠ .ok .clrErr) :
    performPacket p s = .next s := by
  rcases performPacket_cases p s with ⟨i, hi, command⟩ | ⟨-, illegal⟩
  · have notClrErr : i ≠ .clrErr := fun clears => other (clears ▸ hi)
    rw [command, exec_held notClrErr held]
  · rw [illegal]
    exact perform_held held _

/-- Settles O11: `exec_held` for commands, `performPacket_held` for packets. -/
theorem heldErrorDropsEveryOtherPacket : Obligations.HeldErrorDropsEveryOtherPacket :=
  ⟨fun _ _ => exec_held, fun _ _ => performPacket_held⟩

theorem not_assigned_of_unassigned : ∀ t ∈ unassignedTags, t ∉ assignedTags := by decide

/-- Settles O12: either of the two faults makes the packet spell no command (`decode_ok_iff`). -/
theorem illegalPacketRaisesIllegalCommand : Obligations.IllegalPacketRaisesIllegalCommand := by
  intro p s ready fault
  refine performPacket_illegal ready fun legal => ?_
  obtain ⟨rsv, assigned⟩ := (decode_ok_iff p).1 legal
  rcases fault with reserved | unassigned
  · exact reserved rsv
  · exact not_assigned_of_unassigned _ unassigned assigned

/-! ### The raises of the divider and of the digit pipeline -/

/-- Settles O35: the zero test of DIV and of MOD. -/
theorem zeroDivisorRaisesDivisionByZero : Obligations.ZeroDivisorRaisesDivisionByZero :=
  fun a _ _ ready zero => ⟨exec_div_by_zero a ready zero, exec_mod_by_zero a ready zero⟩

/-- Settles O53: the radix test of TOSTR. -/
theorem radixOutsideTheRangeRaisesInvalidRadix : Obligations.RadixOutsideTheRangeRaisesInvalidRadix :=
  fun a _ _ => exec_toStr_illegal_radix a

/-! ### What a packet can do -/

/-- Every command completes, fails by a raise, or is dropped: none stops the machine. -/
theorem exec_total (i : Instr) (s : State) : ∃ t, exec i s = .next t := by
  rcases exec_cases i s with ⟨-, clears⟩ | ⟨-, -, dropped⟩ |
    ⟨-, -, ⟨-, _, res⟩ | ⟨-, _, aux⟩ | ⟨-, _, byt⟩ | ⟨_, _, -, -, -, dig⟩ | ⟨-, div⟩ | ⟨-, radix⟩⟩
  exacts [⟨_, clears⟩, ⟨_, dropped⟩, ⟨_, res⟩, ⟨_, aux⟩, ⟨_, byt⟩, ⟨_, dig⟩, ⟨_, div⟩, ⟨_, radix⟩]

theorem performPacket_total (p : Packet) (s : State) : ∃ t, performPacket p s = .next t := by
  by_cases legal : ∃ i, decode p = .ok i
  · obtain ⟨i, hi⟩ := legal
    rw [performPacket_ok hi]
    exact exec_total i s
  · by_cases ready : s.err = .none
    · exact ⟨_, performPacket_illegal ready legal⟩
    · exact ⟨_, performPacket_held ready fun clears => legal ⟨_, clears⟩⟩

/-- With no error held, every command leaves `ERR` at NONE and changes its destination at most, or writes `ERR` only. -/
theorem exec_ready_frame {i : Instr} {s t : State} (ready : s.err = .none) (h : exec i s = .next t) :
    t.input = s.input ∧ t.cfg = s.cfg ∧
    (t.err = .none ∧ (∀ r, r ≠ destination i → ¬ differ r s t) ∨ t.err ≠ .none ∧ t = { s with err := t.err }) := by
  obtain ⟨input, cfg, completes, fails, -, -⟩ := commandWritesOnlyItsDestination i s t h
  refine ⟨input, cfg, ?_⟩
  by_cases err : t.err = .none
  · exact .inl ⟨err, completes ready err⟩
  · exact .inr ⟨err, fails ready err⟩

/-- Settles O10: the latch, legality and execution, each by its lemma, with the operands of R74. -/
theorem packetIsPerformedInTheFrame : Obligations.PacketIsPerformedInTheFrame := by
  intro p s
  refine ⟨performPacket_held, fun ready illegal => performPacket_illegal ready fun ⟨i, hi⟩ => illegal i hi,
    decode_of_rsv_zero, fun i hi => performPacket_ok hi s, fun chain => receiver_of_chain chain s,
    fun literal => receiver_of_not_chain literal s, rfl, fun clears => performPacket_ok clears s,
    fun i hi ready => ?_⟩
  obtain ⟨t, ht⟩ := exec_total i s
  exact ⟨t, (performPacket_ok hi s).trans ht, exec_ready_frame ready ht⟩

/-- A packet leaves the state as it is, or writes one register: `ERR`, or with no error held its command's
destination. -/
theorem performPacket_changesOnly {p : Packet} {s t : State} (h : performPacket p s = .next t) :
    t = s ∨ (ChangesOnly .err s t ∧ (s.err = .none ∨ t.err = .none)) ∨
    (s.err = .none ∧ t.err = .none ∧ ∃ r, ChangesOnly r s t) := by
  rcases performPacket_cases p s with ⟨i, -, command⟩ | ⟨-, illegal⟩
  · rcases exec_frame_cases (command.symm.trans h) with ⟨-, rfl⟩ | ⟨-, -, rfl⟩ | ⟨-, ready, completes, only⟩ |
      ⟨-, ready, k, -, rfl⟩
    · exact .inr (.inl ⟨changesOnly_clearErr s, .inr rfl⟩)
    · exact .inl rfl
    · exact .inr (.inr ⟨ready, completes, _, only⟩)
    · exact .inr (.inl ⟨changesOnly_raise s k, .inl ready⟩)
  · rcases perform_cases (illegal.symm.trans h) with ⟨ready, rfl⟩ | ⟨-, rfl⟩
    · exact .inr (.inl ⟨changesOnly_raise s _, .inl ready⟩)
    · exact .inl rfl

theorem not_differ_self (r : RegName) (s : State) : ¬ differ r s s := by
  cases r <;> simp [differ]

theorem ChangesOnly.unique {r₀ r r' : RegName} {s t : State} (h : ChangesOnly r₀ s t) (hr : differ r s t)
    (hr' : differ r' s t) : r = r' :=
  (h.only r hr).trans (h.only r' hr').symm

/-- The four result registers stay where a packet writes `ERR` only. -/
theorem ChangesOnly.results {s t : State} (h : ChangesOnly .err s t) :
    t.res = s.res ∧ t.aux = s.aux ∧ t.byt = s.byt ∧ t.dig = s.dig :=
  ⟨not_not.1 fun d => h.others .res (by decide) (Ne.symm d), not_not.1 fun d => h.others .aux (by decide) (Ne.symm d),
    not_not.1 fun d => h.others .byt (by decide) (Ne.symm d), not_not.1 fun d => h.others .dig (by decide) (Ne.symm d)⟩

/-- Settles O14, by the cases of `performPacket_changesOnly`. -/
theorem atMostOneRegisterChangesPerPacket : Obligations.AtMostOneRegisterChangesPerPacket := by
  intro p s t h
  rcases performPacket_changesOnly h with rfl | ⟨only, err⟩ | ⟨ready, completes, r, only⟩
  · exact ⟨fun r _ hr => absurd hr (not_differ_self r t), .inl rfl, fun _ => ⟨rfl, rfl, rfl, rfl⟩⟩
  · exact ⟨fun _ _ => only.unique, .inr err, fun _ => only.results⟩
  · exact ⟨fun _ _ => only.unique, .inr (.inl ready), fun held => absurd ready held⟩

/-! ### The kinds that are raised -/

/-- What a command can make of `ERR`: it stays, or is cleared, or the command is one of the three that raise. -/
theorem exec_err_cases {i : Instr} {s t : State} (h : exec i s = .next t) :
    t.err = s.err ∨ t.err = .none ∨
    (t.err = .divisionByZero ∧ ((∃ a b, i = .div a b) ∨ ∃ a b, i = .mod a b)) ∨
    (t.err = .invalidRadix ∧ ∃ a r, i = .toStr a r) := by
  have answer {u : State} (hu : exec i s = .next u) : t = u := Host.Outcome.next.inj (h.symm.trans hu)
  rcases exec_cases i s with ⟨-, clears⟩ | ⟨-, -, dropped⟩ |
    ⟨-, -, ⟨-, _, res⟩ | ⟨-, _, aux⟩ | ⟨-, _, byt⟩ | ⟨_, _, -, -, -, dig⟩ | ⟨divides, div⟩ | ⟨toStr, radix⟩⟩
  · exact .inr (.inl (answer clears ▸ rfl))
  · exact .inl (answer dropped ▸ rfl)
  · exact .inl (answer res ▸ rfl)
  · exact .inl (answer aux ▸ rfl)
  · exact .inl (answer byt ▸ rfl)
  · exact .inl (answer dig ▸ rfl)
  · exact .inr (.inr (.inl ⟨answer div ▸ rfl, divides⟩))
  · exact .inr (.inr (.inr ⟨answer radix ▸ rfl, toStr⟩))

/-- What a packet can make of `ERR`. -/
theorem performPacket_err_cases {p : Packet} {s t : State} (h : performPacket p s = .next t) :
    t.err = s.err ∨ t.err = .none ∨ t.err = .invalidRadix ∨ t.err = .divisionByZero ∨ t.err = .illegalCommand := by
  rcases performPacket_cases p s with ⟨i, -, command⟩ | ⟨-, illegal⟩
  · rcases exec_err_cases (command.symm.trans h) with stays | clears | ⟨zero, -⟩ | ⟨radix, -⟩
    · exact .inl stays
    · exact .inr (.inl clears)
    · exact .inr (.inr (.inr (.inl zero)))
    · exact .inr (.inr (.inl radix))
  · rcases perform_cases (illegal.symm.trans h) with ⟨-, rfl⟩ | ⟨-, rfl⟩
    · exact .inr (.inr (.inr (.inr rfl)))
    · exact .inl rfl

/-- What a step can make of `ERR`. -/
theorem step_err_cases {s t : State} (h : step s = .next t) :
    t.err = s.err ∨ t.err = .none ∨ t.err = .invalidRadix ∨ t.err = .divisionByZero ∨ t.err = .illegalCommand := by
  rcases step_cases s with ⟨-, idle⟩ | ⟨rest, -, resets⟩ | ⟨p, rest, -, performs⟩
  · exact .inl (Host.Outcome.next.inj (h.symm.trans idle) ▸ rfl)
  · exact .inr (.inl (Host.Outcome.next.inj (h.symm.trans resets) ▸ rfl))
  · have waiting : State.err { s with input := rest } = s.err := rfl
    exact waiting ▸ performPacket_err_cases (performs.symm.trans h)

/-- Settles O15: `exec_err_cases` for commands, `step_err_cases` for steps, and the codes of R35. -/
theorem onlyThreeKindsAreEverRaised : Obligations.OnlyThreeKindsAreEverRaised := by
  refine ⟨fun i s t h changes raised => ?_, fun s t => step_err_cases, rfl, rfl, rfl, rfl, rfl, rfl⟩
  rcases exec_err_cases h with stays | clears | raises
  · exact absurd stays changes
  · exact absurd clears raised
  · exact raises

/-! ### Steps and deliveries -/

/-- Settles O9: taking the head of the deliveries leaves the state with the rest of them. -/
theorem stepRunsTheDecodedCommand : Obligations.StepRunsTheDecodedCommand :=
  ⟨fun _ _ _ => rfl, fun _ _ _ _ hi => performPacket_ok hi _⟩

/-- The model's own fields are outside every packet's reach. -/
theorem performPacket_input_cfg {p : Packet} {s t : State} (h : performPacket p s = .next t) :
    t.input = s.input ∧ t.cfg = s.cfg := by
  rcases performPacket_changesOnly h with rfl | ⟨only, -⟩ | ⟨-, -, _, only⟩
  · exact ⟨rfl, rfl⟩
  · exact ⟨only.input, only.cfg⟩
  · exact ⟨only.input, only.cfg⟩

/-- Settles O17, by the three kinds of step. -/
theorem everyStepCompletes : Obligations.EveryStepCompletes := by
  intro s
  rcases step_cases s with ⟨nothing, idle⟩ | ⟨rest, head, resets⟩ | ⟨p, rest, head, performs⟩
  · exact ⟨s, idle, by rw [nothing, List.tail_nil], rfl, fun _ => rfl⟩
  · exact ⟨_, resets, by rw [head]; rfl, rfl, fun nothing => by simp [head] at nothing⟩
  · obtain ⟨t, ht⟩ := performPacket_total p { s with input := rest }
    obtain ⟨input, cfg⟩ := performPacket_input_cfg ht
    exact ⟨t, performs.trans ht, by rw [input, head, List.tail_cons], cfg, fun nothing => by simp [head] at nothing⟩

/-- A state with other deliveries behind it. -/
def State.withInput (s : State) (es : List HostEvent) : State := { s with input := es }

/-- An effect that does not read the deliveries is performed as well with others behind it. -/
theorem perform_withInput {f : State → State} {s t : State} (es : List HostEvent)
    (unread : f (s.withInput es) = (f s).withInput es) (h : perform s f = .next t) :
    perform (s.withInput es) f = .next (t.withInput es) := by
  rcases perform_cases h with ⟨ready, rfl⟩ | ⟨held, rfl⟩
  · have ready' : (s.withInput es).err = .none := ready
    rw [perform_ready ready', unread]
  · have held' : (t.withInput es).err ≠ .none := held
    rw [perform_held held']

/-- No command reads the deliveries behind it. -/
theorem exec_withInput {i : Instr} {s t : State} (es : List HostEvent) (h : exec i s = .next t) :
    exec i (s.withInput es) = .next (t.withInput es) := by
  cases i with
  | clrErr =>
    cases h
    rfl
  | div | mod | toStr =>
    unfold exec at h ⊢
    refine perform_withInput es ?_ h
    split <;> rfl
  | _ =>
    unfold exec at h ⊢
    refine perform_withInput es ?_ h
    rfl

theorem performPacket_withInput {p : Packet} {s t : State} (es : List HostEvent) (h : performPacket p s = .next t) :
    performPacket p (s.withInput es) = .next (t.withInput es) := by
  cases hp : decode p with
  | ok i =>
    rw [performPacket_ok hp] at h ⊢
    exact exec_withInput es h
  | error e =>
    rw [performPacket_error hp] at h ⊢
    exact perform_withInput es rfl h

/-- One delivery is taken and the rest wait: the step answers the same registers whatever waits behind it. -/
theorem step_withInput (e : HostEvent) (s : State) :
    ∃ t : State, ∀ es, step (s.withInput (e :: es)) = .next (t.withInput es) := by
  cases e with
  | reset => exact ⟨s.applyReset, fun _ => rfl⟩
  | command p =>
    obtain ⟨t, ht⟩ := performPacket_total p s
    refine ⟨t, fun es => ?_⟩
    have taken : step (s.withInput (.command p :: es)) = performPacket p (s.withInput es) := rfl
    rw [taken, performPacket_withInput es ht]

/-- One step of a run. -/
theorem run_succ {M : Host.Core} {s t : M.State} (k : Nat) (h : M.step s = .next t) :
    M.run (k + 1) s = M.run k t := by
  rw [Host.Core.run, h]

/-- As many steps as there are deliveries in `es` take exactly these, whatever waits behind them. -/
theorem run_withInput (es : List HostEvent) (s : State) :
    ∃ t : State, ∀ fs k, Host.Core.run core (es.length + k) (s.withInput (es ++ fs)) =
      Host.Core.run core k (t.withInput fs) := by
  induction es generalizing s with
  | nil => exact ⟨s, fun fs k => by rw [List.length_nil, Nat.zero_add, List.nil_append]⟩
  | cons e es ih =>
    obtain ⟨u, hu⟩ := step_withInput e s
    obtain ⟨t, ht⟩ := ih u
    refine ⟨t, fun fs k => ?_⟩
    have first : core.step (s.withInput (e :: (es ++ fs))) = .next (u.withInput (es ++ fs)) := hu (es ++ fs)
    rw [List.length_cons, Nat.add_right_comm]
    exact (run_succ (es.length + k) first).trans (ht fs k)

/-- Settles O18: the run of `run_withInput`, with nothing behind the deliveries and no further step, and with more. -/
theorem deliveriesArePerformedInOrder : Obligations.DeliveriesArePerformedInOrder := by
  intro es fs s
  obtain ⟨t, ht⟩ := run_withInput es s
  have alone := ht [] 0
  rw [List.append_nil, Nat.add_zero] at alone
  exact ⟨t.withInput [], rfl, alone, ht fs⟩

end Sys2Proof.Machine
end

section
/-! PROOF. Reset and the invariant (70_reset_and_hazards.md R350, 10_state.md R34 and R35): the digit string TOSTR
writes is well formed, and every step keeps the two halves of the invariant. -/

namespace Sys2Proof.Machine

/-- Settles O20: a reset event puts the registers of `State.reset` into the state it meets. -/
theorem resetForgetsTheRegisters : Obligations.ResetForgetsTheRegisters :=
  fun _ _ => ⟨_, rfl, rfl, rfl, rfl, rfl, rfl⟩

/-- The empty string of R45 is well formed. -/
theorem DigitString.empty_wf : DigitString.empty.wf := by
  have places (i : Fin 64) : DigitString.empty.digits[i] = 0 := Vector.getElem_replicate i.isLt
  have len : DigitString.empty.len.toNat = 0 := rfl
  refine ⟨by rw [len]; decide, fun i => by rw [places]; decide, fun i _ => places i, fun long => ?_, fun _ => rfl⟩
  rw [len] at long
  exact absurd long (by decide)

/-- Settles O21: `DIG` is the empty string and `ERR` is NONE. -/
theorem resetSatisfiesTheInvariant : Obligations.ResetSatisfiesTheInvariant :=
  ⟨DigitString.empty_wf, by decide, by decide⟩

section toDigits
variable (v : Value) {r : Nat}

/-- Every Value has a digit, and at most 64 of them. -/
theorem toDigits_len_bounds (hr : 2 ≤ r) : 1 ≤ (toDigits v r).len.toNat ∧ (toDigits v r).len.toNat ≤ 64 := by
  rw [toDigits_len v hr]
  refine ⟨?_, length_digitsOf_le hr v.num_natAbs_lt⟩
  rcases Nat.eq_zero_or_pos v.num.natAbs with zero | pos
  · rw [zero, length_digitsOf_zero hr]
  · exact (length_digitsOf_bounds hr pos v.num_natAbs_lt).1

theorem toDigits_digit_lt (hr : 2 ≤ r) (hr' : r ≤ 36) (i : Fin 64) : (toDigits v r).digits[i].toNat < r := by
  rcases Nat.lt_or_ge i.val (toDigits v r).len.toNat with inside | beyond
  · rw [toDigits_digit v hr hr' i inside]
    exact Nat.mod_lt _ (by omega)
  · rw [toDigits_digit_beyond v hr i beyond]
    exact (by omega : 0 < r)

/-- A string of more than one digit is that of a magnitude of at least `r ^ (LEN - 1)`, so its first digit is not 0. -/
theorem toDigits_leading_ne_zero (hr : 2 ≤ r) (hr' : r ≤ 36) (long : 1 < (toDigits v r).len.toNat) :
    (toDigits v r).digits[0] ≠ 0 := by
  have leading : (toDigits v r).digits[0].toNat = v.num.natAbs / r ^ ((toDigits v r).len.toNat - 1) % r :=
    toDigits_digit v hr hr' 0 (Nat.zero_lt_of_lt long)
  rw [toDigits_len v hr] at long leading
  have pos : 0 < v.num.natAbs := by
    refine Nat.pos_of_ne_zero fun zero => ?_
    rw [zero, length_digitsOf_zero hr] at long
    omega
  obtain ⟨one_le, below, above⟩ := length_digitsOf_bounds hr pos v.num_natAbs_lt
  generalize (digitsOf v.num.natAbs r).length = n at *
  have weight : 0 < r ^ (n - 1) := Nat.pow_pos (by omega)
  have quotient_pos : 0 < v.num.natAbs / r ^ (n - 1) := Nat.div_pos below weight
  have quotient_lt : v.num.natAbs / r ^ (n - 1) < r := by
    rwa [Nat.div_lt_iff_lt_mul weight, ← pow_succ', Nat.sub_add_cancel one_le]
  intro zero
  rw [zero, Nat.mod_eq_of_lt quotient_lt] at leading
  exact quotient_pos.ne leading

/-- TOSTR's digit string is well formed (R34, R250). -/
theorem toDigits_wf (hr : 2 ≤ r) (hr' : r ≤ 36) : (toDigits v r).wf := by
  obtain ⟨one_le, le⟩ := toDigits_len_bounds v hr
  exact ⟨le, fun i => (toDigits_digit_lt v hr hr' i).trans_le hr', toDigits_digit_beyond v hr,
    toDigits_leading_ne_zero v hr hr', fun empty => by omega⟩

end toDigits

/-- A command leaves `DIG` as it is, or writes the digit string of a Value in a legal radix. -/
theorem exec_dig_cases {i : Instr} {s t : State} (h : exec i s = .next t) :
    t.dig = s.dig ∨ ∃ v r, 2 ≤ r ∧ r ≤ 36 ∧ t.dig = toDigits v r := by
  have answer {u : State} (hu : exec i s = .next u) : t = u := Host.Outcome.next.inj (h.symm.trans hu)
  rcases exec_cases i s with ⟨-, clears⟩ | ⟨-, -, dropped⟩ |
    ⟨-, -, ⟨-, _, res⟩ | ⟨-, _, aux⟩ | ⟨-, _, byt⟩ | ⟨a, r, -, hr, hr', dig⟩ | ⟨-, div⟩ | ⟨-, radix⟩⟩
  · exact .inl (answer clears ▸ rfl)
  · exact .inl (answer dropped ▸ rfl)
  · exact .inl (answer res ▸ rfl)
  · exact .inl (answer aux ▸ rfl)
  · exact .inl (answer byt ▸ rfl)
  · exact .inr ⟨receiver a s, r, hr, hr', answer dig ▸ rfl⟩
  · exact .inl (answer div ▸ rfl)
  · exact .inl (answer radix ▸ rfl)

/-- A packet keeps `DIG` well formed. -/
theorem performPacket_dig_wf {p : Packet} {s t : State} (wf : s.dig.wf) (h : performPacket p s = .next t) :
    t.dig.wf := by
  rcases performPacket_cases p s with ⟨i, -, command⟩ | ⟨-, illegal⟩
  · rcases exec_dig_cases (command.symm.trans h) with stays | ⟨v, r, hr, hr', digits⟩
    · exact stays ▸ wf
    · exact digits ▸ toDigits_wf v hr hr'
  · rcases perform_cases (illegal.symm.trans h) with ⟨-, rfl⟩ | ⟨-, rfl⟩
    · exact wf
    · exact wf

/-- A step keeps `DIG` well formed. -/
theorem step_dig_wf {s t : State} (wf : s.dig.wf) (h : step s = .next t) : t.dig.wf := by
  rcases step_cases s with ⟨-, idle⟩ | ⟨rest, -, resets⟩ | ⟨p, rest, -, performs⟩
  · exact Host.Outcome.next.inj (h.symm.trans idle) ▸ wf
  · exact Host.Outcome.next.inj (h.symm.trans resets) ▸ DigitString.empty_wf
  · have waiting : State.dig { s with input := rest } = s.dig := rfl
    exact performPacket_dig_wf (waiting ▸ wf) (performs.symm.trans h)

/-- Settles O22: `DIG` by `step_dig_wf`; `ERR` keeps its kind or takes one the block raises (`step_err_cases`). -/
theorem everyStepKeepsTheInvariant : Obligations.EveryStepKeepsTheInvariant := by
  rintro s t ⟨wf, notEmptyInput, notMalformedInput⟩ h
  refine ⟨step_dig_wf wf h, ?_⟩
  rcases step_err_cases h with stays | clears | radix | zero | illegal
  · exact stays ▸ ⟨notEmptyInput, notMalformedInput⟩
  · exact clears ▸ ⟨by decide, by decide⟩
  · exact radix ▸ ⟨by decide, by decide⟩
  · exact zero ▸ ⟨by decide, by decide⟩
  · exact illegal ▸ ⟨by decide, by decide⟩

end Sys2Proof.Machine
end

section
/-! PROOF. The named constants (10_state.md R22) and the laws of the numbers: re-reading and FROMINT
(40_representation.md R112), arithmetic modulo 2^64 (R121, R131, R141), quotient and remainder together (43_divide_modulo.md R185), and EQ and
CMP as equality and order of the numbers (45_comparison.md R232, R237). -/

namespace Sys2Proof

/-- Settles O2: the eight triples and their numbers, computed. -/
theorem namedConstantsHaveTheirNumbers : Obligations.NamedConstantsHaveTheirNumbers := by
  unfold Obligations.NamedConstantsHaveTheirNumbers
  decide

/-! ### FROMINT's number -/

theorem Value.num_extendLow_unsigned (low : Word) : (Value.extendLow low true).num = low.toNat := by
  have zero : (0 : Word).toNat = 0 := rfl
  rw [Value.extendLow_unsigned, Value.num_of_unsigned rfl, Value.pat_toNat, zero, Nat.zero_mul, Nat.zero_add]

/-- A signed Value's number is its pattern in two's complement. -/
theorem Value.num_eq_toInt {v : Value} (hu : v.uns = false) : v.num = v.pat.toInt := by
  have hp := v.pat.isLt
  have reading := v.pat.toInt_eq_toNat_cond
  rcases v.num_cases with ⟨unsigned, -⟩ | ⟨-, low, hn⟩ | ⟨-, high, hn⟩
  · simp [hu] at unsigned
  · rw [if_pos (by omega)] at reading
    exact hn.trans reading.symm
  · rw [if_neg (by omega)] at reading
    exact hn.trans reading.symm

/-- The word's own sign, extended (R103): the high word reads -1 exactly when the low word reads 2^32 too high. -/
theorem Value.num_extendLow_signed (low : Word) : (Value.extendLow low false).num = low.toInt := by
  have extended : (Value.extendLow low false).pat.toInt = 2 ^ 32 * (Value.extendLow low false).high.toInt + low.toNat :=
    BitVec.toInt_append
  rw [Value.num_eq_toInt rfl, extended, Value.extendLow_signed, low.toInt_eq_msb_cond, BitVec.msb_eq_getLsbD_last]
  have minusOne : (0xFFFFFFFF : Word).toInt = -1 := rfl
  have zero : (0 : Word).toInt = 0 := rfl
  dsimp only
  split
  · rw [minusOne]
    omega
  · rw [zero]
    omega

/-! ### Arithmetic modulo 2^64 -/

/-- `val` represents its integer modulo 2^64, under either flag. -/
theorem Value.num_val_modEq (n : Int) (u : Bool) : (Value.val n u).num ≡ n [ZMOD 2 ^ 64] :=
  (Value.pat_modEq_num _).symm.trans (Value.val_pat_modEq n u)

theorem Value.num_addLimbs_modEq (a b : Value) : (a.addLimbs b).num ≡ a.num + b.num [ZMOD 2 ^ 64] := by
  rw [Value.addLimbs_eq_val, Nat.cast_add]
  exact (Value.num_val_modEq ..).trans (a.pat_modEq_num.add b.pat_modEq_num)

theorem Value.num_subLimbs_modEq (a b : Value) : (a.subLimbs b).num ≡ a.num - b.num [ZMOD 2 ^ 64] := by
  rw [Value.subLimbs_eq_val]
  exact (Value.num_val_modEq ..).trans (a.pat_modEq_num.sub b.pat_modEq_num)

theorem Value.num_negate_modEq (a : Value) : a.negate.num ≡ -a.num [ZMOD 2 ^ 64] := by
  have wrap : (2 ^ 64 - a.pat.toNat : Int) ≡ -a.pat.toNat [ZMOD 2 ^ 64] := by
    rw [Int.ModEq]
    omega
  rw [Value.negate_eq_val]
  exact ((Value.num_val_modEq ..).trans wrap).trans a.pat_modEq_num.neg

theorem Value.num_mulLimbs_modEq (a b : Value) : (a.mulLimbs b).num ≡ a.num * b.num [ZMOD 2 ^ 64] := by
  rw [Value.mulLimbs_eq_val, Nat.cast_mul]
  exact (Value.num_val_modEq ..).trans (a.pat_modEq_num.mul b.pat_modEq_num)

/-! ### Quotient and remainder together -/

theorem Value.quotient_uns (a b : Value) : (a.quotient b).uns = a.uns := by
  unfold Value.quotient
  split
  next unsigned => exact unsigned.symm
  next signed => exact (Bool.eq_false_iff.2 signed).symm

/-- The remainder is what the product leaves of the dividend, so the two add up to it, wrapped or not (R185). -/
theorem Value.quotient_mul_add_modulo (a b : Value) : ((a.quotient b).mulLimbs b).addLimbs (a.modulo b) = a := by
  have flag : (((a.quotient b).mulLimbs b).addLimbs (a.modulo b)).uns = a.uns := by
    rw [Value.addLimbs_uns, Value.mulLimbs_uns, Value.quotient_uns]
  refine Value.eq_of_pat ?_ flag
  rw [Value.addLimbs_pat, Value.modulo, Value.subLimbs_pat, BitVec.add_comm, BitVec.sub_add_cancel]

/-! ### Equality and order of the numbers -/

theorem Value.pat_eq_iff (a b : Value) : a.pat = b.pat ↔ a.low = b.low ∧ a.high = b.high := by
  rw [Value.pat, Value.pat, bits_append_eq_iff, and_comm]

theorem Value.pat_eq_of_num_eq {a b : Value} (numbers : a.num = b.num) : a.pat = b.pat := by
  have ha := a.num_emod
  have hb := b.num_emod
  apply BitVec.eq_of_toNat_eq
  omega

/-- Below 2^63 the flag does not matter. -/
theorem Value.num_of_low {v : Value} (low : v.pat.toNat < 2 ^ 63) : v.num = v.pat.toNat := by
  rcases v.num_cases with ⟨-, hn⟩ | ⟨-, -, hn⟩ | ⟨-, high, -⟩
  · exact hn
  · exact hn
  · omega

/-- From 2^63 on the number tells the flag: it is negative exactly for a signed Value. -/
theorem Value.uns_eq_of_num_eq {a b : Value} (numbers : a.num = b.num) (highA : 2 ^ 63 ≤ a.pat.toNat)
    (highB : 2 ^ 63 ≤ b.pat.toNat) : a.uns = b.uns := by
  have sign {v : Value} (high : 2 ^ 63 ≤ v.pat.toNat) : v.uns = false ↔ v.num < 0 := by
    have test : v.isNeg = true ↔ v.uns = false := by simp [Value.isNeg, v.topBit_iff.2 high]
    rw [← test, Value.isNeg_iff]
  have signed : a.uns = false ↔ b.uns = false := by rw [sign highA, sign highB, numbers]
  exact Bool.eq_iff_iff.2 (by simpa using not_congr signed)

/-- Equal words under different flags are equal numbers exactly when the top bit is clear, which is the exception of
R231. -/
theorem Value.equal_iff_num_eq (a b : Value) : a.equal b = true ↔ a.num = b.num := by
  have topA : a.high.getLsbD 31 = true ↔ 2 ^ 63 ≤ a.pat.toNat := a.topBit_iff
  have topB : b.high.getLsbD 31 = true ↔ 2 ^ 63 ≤ b.pat.toNat := b.topBit_iff
  rw [Value.equal_iff, ← Value.pat_eq_iff, topA, topB]
  constructor
  · rintro ⟨unexceptional, same⟩
    rcases Nat.lt_or_ge a.pat.toNat (2 ^ 63) with low | high
    · rw [Value.num_of_low low, Value.num_of_low (same ▸ low), same]
    · have flags : a.uns = b.uns := not_not.1 fun differ => unexceptional ⟨differ, high, same ▸ high⟩
      rw [Value.eq_of_pat same flags]
  · intro numbers
    exact ⟨fun ⟨differ, highA, highB⟩ => differ (Value.uns_eq_of_num_eq numbers highA highB),
      Value.pat_eq_of_num_eq numbers⟩

/-- Of numbers that are not negative the words give the order. -/
theorem Value.wordsBelow_iff_pat_lt (a b : Value) : a.wordsBelow b = true ↔ a.pat.toNat < b.pat.toNat := by
  have ha := a.low.isLt
  have hb := b.low.isLt
  rw [Value.wordsBelow_iff, a.pat_toNat, b.pat_toNat, ← BitVec.toNat_inj]
  omega

/-- Where the difference of the numbers fits a signed Value, the top bit of `sub` is its sign. -/
theorem Value.diffSign_of_fits {a b : Value} (fits : -(2 ^ 63) ≤ a.num - b.num ∧ a.num - b.num < 2 ^ 63) :
    a.diffSign b = if a.num < b.num then -1 else 1 := by
  have ha := a.num_emod
  have hb := b.num_emod
  have diff : ((a.subLimbs b).pat.toNat : Int) = (a.num - b.num) % 2 ^ 64 := by
    rw [← Value.num_emod, ← Int.ModEq]
    exact Value.num_subLimbs_modEq a b
  have sign : (a.subLimbs b).topBit = true ↔ a.num < b.num := by
    rw [Value.topBit_iff]
    omega
  simp only [Value.diffSign, sign]

theorem Value.num_eq_pat_of_not_neg {v : Value} (h : ¬ v.num < 0) : v.num = v.pat.toNat := by
  have hp := v.pat.isLt
  rcases v.num_cases with ⟨-, hn⟩ | ⟨-, -, hn⟩ | ⟨-, -, hn⟩ <;> omega

theorem Value.num_ge (v : Value) : -(2 ^ 63) ≤ v.num := by
  rcases v.num_cases with ⟨-, hn⟩ | ⟨-, -, hn⟩ | ⟨-, high, hn⟩ <;> omega

/-- The six cases of R235 are the order of the numbers: the two subtractions are of numbers with one sign, and the words
are compared where they are the numbers. -/
theorem Value.compare_eq_order (a b : Value) :
    a.compare b = if a.num < b.num then -1 else if a.num = b.num then 0 else 1 := by
  have lowerA := a.num_ge
  have lowerB := b.num_ge
  unfold Value.compare
  simp only [Value.equal_iff_num_eq, Bool.and_eq_true, Bool.not_eq_true', Bool.or_eq_true, ← Bool.not_eq_true,
    Value.isNeg_iff]
  split
  next equal => rw [if_neg equal.not_lt]
  next unequal =>
    split
    next below => rw [if_pos (by omega)]
    next notBelow =>
      split
      next above => rw [if_neg (by omega)]
      next notAbove =>
        split
        next negative => exact Value.diffSign_of_fits (by omega)
        next notNegative =>
          have numA : a.num = a.pat.toNat := Value.num_eq_pat_of_not_neg (by omega)
          have numB : b.num = b.pat.toNat := Value.num_eq_pat_of_not_neg (by omega)
          split
          next unsigned => simp only [Value.wordsBelow_iff_pat_lt, numA, numB, Nat.cast_lt]
          next signed =>
            obtain ⟨signedA, signedB⟩ := not_or.1 signed
            have upperA := (Value.num_range_of_signed (Bool.eq_false_iff.2 signedA)).2
            have upperB := (Value.num_range_of_signed (Bool.eq_false_iff.2 signedB)).2
            exact Value.diffSign_of_fits (by omega)

namespace Machine

/-! ### The statements -/

/-- A write to `RES` raises nothing. -/
theorem State.writeRes_ready {s : State} (ready : s.err = .none) (v : Value) : (s.writeRes v).err = .none := ready

/-- Settles O27: both re-readings write the same words under their own flag; FROMINT's extension keeps the low word,
which TOINT reads back, and its number is the word's under each flag. -/
theorem representationCommandsRoundTrip : Obligations.RepresentationCommandsRoundTrip := by
  refine ⟨fun v s ready => ?_, fun n h u s ready => ?_⟩
  · have flag (v : Value) (u : Bool) : v.withFlag u = .ofPat v.pat u := Value.eq_of_pat (Value.pat_ofPat ..).symm rfl
    exact ⟨_, _, _, exec_fromBits_ready (.lit v) ready, exec_toUnsigned_ready .res ready,
      exec_toSigned_ready .res ready, rfl, flag v true, flag v false⟩
  · refine ⟨_, _, exec_fromInt_ready (.lit ⟨n, h, u⟩) ready, exec_toInt_ready .res ready, ?_, rfl⟩
    cases u with
    | true => exact Value.num_extendLow_unsigned n
    | false => exact Value.num_extendLow_signed n

/-- Settles O31: each command writes its datapath's Value, whose number has its congruence. -/
theorem arithmeticIsModularOnNumbers : Obligations.ArithmeticIsModularOnNumbers :=
  fun a b _ ready =>
    ⟨⟨_, exec_add_ready a b ready, Value.num_addLimbs_modEq ..⟩,
      ⟨_, exec_sub_ready a b ready, Value.num_subLimbs_modEq ..⟩,
      ⟨_, exec_neg_ready a ready, Value.num_negate_modEq _⟩, ⟨_, exec_mul_ready a b ready, Value.num_mulLimbs_modEq ..⟩⟩

/-- Settles O38: no command of the chain raises an error, and the last sum is `Value.quotient_mul_add_modulo`. -/
theorem quotientTimesDivisorPlusRemainder : Obligations.QuotientTimesDivisorPlusRemainder := by
  intro a b s ready nonzero
  have ready₁ := State.writeRes_ready ready (a.quotient b)
  have ready₂ := State.writeRes_ready ready₁ ((a.quotient b).mulLimbs b)
  have ready₃ := State.writeRes_ready ready₂ (((a.quotient b).mulLimbs b).addLimbs (a.modulo b))
  refine ⟨_, _, _, _, _, exec_mod_ready (.lit a) ready nonzero, exec_div_ready (.lit a) ready nonzero,
    exec_mul_ready .res b ready₁, exec_add_ready .res _ ready₂, ?restored, exec_eq_res_self a ready₃ ?restored, rfl⟩
  simp only [State.writeRes_res, receiver_res, receiver_lit, Value.quotient_mul_add_modulo]

/-- Settles O50: EQ writes the answer of `equal`, which is the equality of the numbers. -/
theorem eqIsEqualityOfNumbers : Obligations.EqIsEqualityOfNumbers := by
  intro a b s ready
  rw [exec_eq_ready a b ready, State.writeAux]
  simp only [Value.equal_iff_num_eq]

/-- Settles O52: CMP writes the answer of `compare`, which is the order of the numbers. -/
theorem cmpIsTheOrderOfNumbers : Obligations.CmpIsTheOrderOfNumbers := by
  intro a b s ready
  rw [exec_cmp_ready a b ready, Value.compare_eq_order, State.writeAux, apply_ite (BitVec.ofInt 32),
    apply_ite (BitVec.ofInt 32)]
  rfl

end Machine
end Sys2Proof
end

section
/-! PROOF. The bitwise commands on the pattern (44_bitwise_shift_rotate.md R194), SHR as floor division (R212) and the
laws of shifts and rotates (R222). -/

namespace Sys2Proof

/-! ### The bitwise commands -/

/-- AND on words is AND on the pattern. -/
theorem Value.andWords_pat (a b : Value) : (a.andWords b).pat = a.pat &&& b.pat :=
  BitVec.and_append.symm

/-- XOR on words is XOR on the pattern. -/
theorem Value.xorWords_pat (a b : Value) : (a.xorWords b).pat = a.pat ^^^ b.pat :=
  BitVec.xor_append.symm

/-- A Value with the pattern `p` is `p` under its own flag. -/
theorem Value.eq_ofPat {v : Value} {p : Pattern} (hp : v.pat = p) : v = .ofPat p v.uns := by
  rw [← hp, Value.ofPat_pat]

/-- NOT of a signed Value (R193): the complement is one less than the negation. -/
theorem Value.num_notWords {v : Value} (hu : v.uns = false) : v.notWords.num = -v.num - 1 := by
  have hp := v.pat.isLt
  have complement : v.notWords.pat.toNat = 2 ^ 64 - 1 - v.pat.toNat := by rw [Value.notWords_pat, BitVec.toNat_not]
  rcases v.num_cases with ⟨unsigned, -⟩ | ⟨-, low, hn⟩ | ⟨-, high, hn⟩
  · simp [hu] at unsigned
  · rw [Value.num_of_signed_high (v := v.notWords) hu (by omega)]
    omega
  · rw [Value.num_of_signed_low (v := v.notWords) hu (by omega)]
    omega

/-! ### SHR of a signed receiver -/

/-- Filled with its own sign, a number moves down to the floor of the quotient (R212). -/
theorem Value.num_shiftRightFill {v : Value} (hu : v.uns = false) (n : Nat) :
    (v.shiftRightFill n v.topBit).num = v.num / 2 ^ n := by
  rw [Value.num_eq_toInt ((v.shiftRightFill_uns n v.topBit).trans hu), Value.num_eq_toInt hu,
    Value.shiftRightFill_topBit_pat, BitVec.toInt_sshiftRight, Int.shiftRight_eq_div_pow, Nat.cast_pow, Nat.cast_ofNat]

/-! ### The rotates -/

theorem Value.rotateLeft_uns (v : Value) (n : Nat) : (v.rotateLeft n).uns = v.uns := by
  unfold Value.rotateLeft
  split
  · rfl
  · exact v.shiftLeft_uns n

theorem Value.rotateRight_uns (v : Value) (n : Nat) : (v.rotateRight n).uns = v.uns := by
  unfold Value.rotateRight
  split
  · rfl
  · exact v.shiftRightZero_uns n

/-- ROTL on words rotates the pattern. -/
theorem Value.rotateLeft_pat (v : Value) {n : Nat} (hn : n < 64) : (v.rotateLeft n).pat = v.pat.rotateLeft n := by
  rw [BitVec.rotateLeft_def, Nat.mod_eq_of_lt hn, Value.rotateLeft]
  split
  next zero =>
    have out : v.pat >>> 64 = 0#64 := BitVec.ushiftRight_eq_zero le_rfl
    rw [zero, BitVec.shiftLeft_zero, Nat.sub_zero, out, BitVec.or_zero]
  next nonzero => rw [Value.orWords_pat, Value.shiftLeft_pat, Value.shiftRightZero_pat]

/-- ROTR on words rotates the pattern. -/
theorem Value.rotateRight_pat (v : Value) {n : Nat} (hn : n < 64) : (v.rotateRight n).pat = v.pat.rotateRight n := by
  rw [BitVec.rotateRight_def, Nat.mod_eq_of_lt hn, Value.rotateRight]
  split
  next zero =>
    have out : v.pat <<< 64 = 0#64 := BitVec.shiftLeft_eq_zero le_rfl
    rw [zero, BitVec.ushiftRight_zero, Nat.sub_zero, out, BitVec.or_zero]
  next nonzero => rw [Value.orWords_pat, Value.shiftLeft_pat, Value.shiftRightZero_pat]

/-- Rotating back by the same count restores the pattern. -/
theorem pattern_rotateRight_rotateLeft (p : Pattern) (n : Nat) : (p.rotateLeft n).rotateRight n = p := by
  refine BitVec.eq_of_getLsbD_eq fun i hi => ?_
  have hn : n % 64 < 64 := Nat.mod_lt _ (by decide)
  rw [BitVec.getLsbD_rotateRight, BitVec.getLsbD_rotateLeft, BitVec.getLsbD_rotateLeft]
  generalize n % 64 = k at *
  rcases Nat.lt_or_ge i (64 - k) with low | high
  · have place : k + i < 64 := by omega
    simp [low, place]
  · have wrapped : i - (64 - k) < k := by omega
    have place : 64 - k + (i - (64 - k)) = i := by omega
    simp [high.not_gt, wrapped, place, hi]

/-- ROTR takes back what ROTL by the same count did (R222). -/
theorem Value.rotateRight_rotateLeft (v : Value) {n : Nat} (hn : n < 64) : (v.rotateLeft n).rotateRight n = v := by
  refine Value.eq_of_pat ?_ ((Value.rotateRight_uns ..).trans (v.rotateLeft_uns n))
  rw [Value.rotateRight_pat _ hn, Value.rotateLeft_pat _ hn, pattern_rotateRight_rotateLeft]

/-- ROTL by `n` joins the same two shifts as ROTR by `64 - n`. -/
theorem Value.rotateLeft_eq_rotateRight (v : Value) {n : Nat} (hn : n < 64) :
    v.rotateLeft n = v.rotateRight ((64 - n) % 64) := by
  rcases Nat.eq_zero_or_pos n with rfl | pos
  · exact v.rotateLeft_zero.trans v.rotateRight_zero.symm
  · have back : 64 - (64 - n) = n := Nat.sub_sub_self hn.le
    rw [Nat.mod_eq_of_lt (by omega)]
    refine Value.eq_of_pat ?_ ((v.rotateLeft_uns n).trans (v.rotateRight_uns _).symm)
    rw [Value.rotateLeft, if_neg pos.ne', Value.rotateRight, if_neg (by omega), back, Value.orWords_pat,
      Value.orWords_pat, BitVec.or_comm]

/-- SHRU after SHL by the same count drops the top bits of the pattern (R222). -/
theorem Value.shiftRightZero_shiftLeft (v : Value) {n : Nat} (hn : n < 64) :
    (v.shiftLeft n).shiftRightZero n = Value.val (v.pat.toNat % 2 ^ (64 - n) : Nat) v.uns := by
  have places : 2 ^ 64 = 2 ^ (64 - n) * 2 ^ n := by rw [← Nat.pow_add, Nat.sub_add_cancel hn.le]
  rw [Value.shiftRightZero_eq_val, Value.shiftLeft_pat_toNat, places, Nat.mul_mod_mul_right,
    Nat.mul_div_cancel _ (Nat.two_pow_pos n), Value.shiftLeft_uns]

namespace Machine

/-! ### The statements -/

/-- Settles O40: each command's Value has the receiver's flag and the pattern of its own operation. -/
theorem bitwiseCommandsActOnThePattern : Obligations.BitwiseCommandsActOnThePattern := by
  intro a b s ready
  refine ⟨?_, ?_, ?_, ?_, fun signed => ⟨_, exec_not_ready a ready, Value.num_notWords signed⟩⟩
  · rw [exec_and_ready a b ready, Value.eq_ofPat (Value.andWords_pat ..), State.writeRes]
    rfl
  · rw [exec_or_ready a b ready, Value.eq_ofPat (Value.orWords_pat ..), State.writeRes]
    rfl
  · rw [exec_xor_ready a b ready, Value.eq_ofPat (Value.xorWords_pat ..), State.writeRes]
    rfl
  · rw [exec_not_ready a ready, Value.eq_ofPat (Value.notWords_pat _), State.writeRes]
    rfl

/-- Settles O46: a signed receiver is filled with its top bit under either setting. -/
theorem shrOfASignedReceiverIsFloorDivision : Obligations.ShrOfASignedReceiverIsFloorDivision := by
  intro a c s ready signed
  refine ⟨_, exec_shr_ready a c ready, (Value.shiftRightFill_uns ..).trans signed, ?_⟩
  rw [Value.fillBit_eq_topBit (.inl signed)]
  exact Value.num_shiftRightFill signed _

/-- Settles O48: a count acts through its value modulo 64, which 64 does not change; the rotates by
`Value.rotateRight_rotateLeft` and `Value.rotateLeft_eq_rotateRight`; SHRU after SHL drops the top bits of the
pattern. -/
theorem shiftAndRotateLaws : Obligations.ShiftAndRotateLaws := by
  intro a m s ready
  have count : (m + 64) % 64 = m % 64 := Nat.add_mod_right m 64
  have bound : m % 64 < 64 := Nat.mod_lt _ (by decide)
  refine ⟨⟨?_, ?_, ?_, ?_, ?_⟩, ⟨_, _, exec_rotl_ready (.lit a) m ready, exec_rotr_ready .res m ready, ?_⟩, ?_,
    ⟨_, _, exec_shl_ready (.lit a) m ready, exec_shru_ready .res m ready, ?_⟩⟩
  · rw [exec_shl_ready _ _ ready, exec_shl_ready _ _ ready, count]
  · rw [exec_shr_ready _ _ ready, exec_shr_ready _ _ ready, count]
  · rw [exec_shru_ready _ _ ready, exec_shru_ready _ _ ready, count]
  · rw [exec_rotl_ready _ _ ready, exec_rotl_ready _ _ ready, count]
  · rw [exec_rotr_ready _ _ ready, exec_rotr_ready _ _ ready, count]
  · exact Value.rotateRight_rotateLeft a bound
  · rw [exec_rotl_ready _ _ ready, exec_rotr_ready _ _ ready, Nat.mod_mod, Value.rotateLeft_eq_rotateRight _ bound]
  · exact Value.shiftRightZero_shiftLeft a bound

end Machine
end Sys2Proof
end

section
/-! PROOF. The round trip of the bytes (47_byte_serialization.md R278) and the block as the host's accelerator
(49_host_side_and_accelerator.md R312): putting bytes into lanes and taking them out undo each other, and each of the
five commands writes `val` of the number that the laws of R311 give. -/

namespace Sys2Proof.Machine

/-! ### Lanes and bytes -/

/-- Lane `i` of a pattern, as a number. -/
theorem byteLane_toNat (p : Pattern) (i : Nat) : (byteLane p i).toNat = p.toNat / 2 ^ (8 * i) % 2 ^ 8 := by
  rw [byteLane, BitVec.extractLsb'_toNat, Nat.shiftRight_eq_div_pow]

/-- The pattern of a little-endian byte sequence, as the sum of the bytes by their weights (R274). -/
theorem ofBytesLE_pat_toNat (b : Vector Byte 8) (u : Bool) : (Value.ofBytesLE b u).pat.toNat =
    b[7].toNat * 2 ^ 56 + b[6].toNat * 2 ^ 48 + b[5].toNat * 2 ^ 40 + b[4].toNat * 2 ^ 32 +
      b[3].toNat * 2 ^ 24 + b[2].toNat * 2 ^ 16 + b[1].toNat * 2 ^ 8 + b[0].toNat := by
  rw [Value.pat_toNat, Value.ofBytesLE, wordOfBytes_eq_ofNat, wordOfBytes_eq_ofNat, BitVec.toNat_ofNat,
    BitVec.toNat_ofNat]
  omega

/-- The lanes of the Value of some bytes are these bytes. -/
theorem lanesLE_ofBytesLE (b : Vector Byte 8) (u : Bool) : lanesLE (Value.ofBytesLE b u).pat = b := by
  have sum := ofBytesLE_pat_toNat b u
  have lane (i : Fin 8) : byteLane (Value.ofBytesLE b u).pat i = b[i] := by
    apply BitVec.eq_of_toNat_eq
    rw [byteLane_toNat, sum]
    fin_cases i <;> simp only [Fin.getElem_fin] <;> omega
  refine Vector.ext fun i hi => ?_
  exact (lanesLE_getElem _ ⟨i, hi⟩).trans (lane ⟨i, hi⟩)

/-- The Value of a pattern's lanes has that pattern. -/
theorem ofBytesLE_lanesLE (v : Value) : Value.ofBytesLE (lanesLE v.pat) v.uns = v := by
  refine Value.eq_of_pat (BitVec.eq_of_toNat_eq ?_) rfl
  rw [ofBytesLE_pat_toNat]
  simp only [lanesLE, Vector.getElem_mk, List.getElem_toArray, List.getElem_cons_succ, List.getElem_cons_zero,
    byteLane_toNat]
  omega

/-- The two layouts write the lanes in opposite order, and so do the two ways to read them. -/
theorem ofBytesBE_lanesBE (v : Value) : Value.ofBytesBE (lanesBE v.pat) v.uns = v := ofBytesLE_lanesLE v

/-- Settles O59: the carried Value has the bytes of `BYT` in its lanes, so FROMBYTES reads what TOBYTES wrote. -/
theorem byteRoundTrip : Obligations.ByteRoundTrip := by
  intro v s ready
  refine ⟨⟨_, _, exec_toBytesLE_ready (.lit v) ready, exec_fromBytesLE_ready _ ready, ?_⟩,
    ⟨_, _, exec_toBytesBE_ready (.lit v) ready, exec_fromBytesBE_ready _ ready, ?_⟩,
    ⟨_, _, exec_toBytesLE_ready (.lit v) ready, exec_toBytesBE_ready (.lit v) ready, fun i => ?_⟩⟩
  · simp only [receiver_lit, State.writeRes_res, State.writeByt_byt, inputBytes, ofBytesLE_lanesLE]
  · simp only [receiver_lit, State.writeRes_res, State.writeByt_byt, inputBytes, lanesLE_ofBytesLE]
    exact ofBytesBE_lanesBE v
  · have mirrored : 7 - i.val < 8 := by omega
    exact (lanesBE_getElem v.pat i).trans (lanesLE_getElem v.pat ⟨7 - i.val, mirrored⟩).symm

/-! ### The accelerator

The number of an operand is read unsigned or signed from one pattern. Here `a'` and `b'` are `a` and `b` read under the
other flag. -/

section readings
variable {a a' b b' : Value}

theorem mulLimbs_eq_product (ua : a'.uns = true) (ub : b'.uns = true) (sameA : a'.pat = a.pat)
    (sameB : b'.pat = b.pat) :
    a.mulLimbs b = .val (a'.num * b'.num) a.uns := by
  rw [Value.mulLimbs_eq_val, Value.num_of_unsigned ua, Value.num_of_unsigned ub, sameA, sameB, Nat.cast_mul]

theorem quotient_eq_floor (ua : a.uns = true) (ub : b'.uns = true) (sameB : b'.pat = b.pat) (nonzero : b.pat ≠ 0) :
    a.quotient b = .val (a.num / b'.num) true := by
  rw [Value.quotient_of_unsigned ua nonzero, Value.num_of_unsigned ua, Value.num_of_unsigned ub, sameB,
    Int.natCast_ediv]

theorem modulo_eq_floor_remainder (ua : a.uns = true) (ub : b'.uns = true) (sameB : b'.pat = b.pat)
    (nonzero : b.pat ≠ 0) : a.modulo b = .val (a.num - a.num / b'.num * b'.num) true := by
  rw [Value.modulo_of_unsigned ua nonzero, Value.num_of_unsigned ua, Value.num_of_unsigned ub, sameB, mul_comm,
    ← Int.emod_def, Int.natCast_emod]

theorem ofPat_of_signed (ub : b.uns = false) : Value.ofPat b.pat false = b := ub ▸ b.ofPat_pat

theorem quotient_eq_truncated (ua : a.uns = false) (ub : b.uns = false) (nonzero : b.pat ≠ 0) :
    a.quotient b = .val (a.num.tdiv b.num) false := by
  rw [Value.quotient_of_signed ua nonzero, ofPat_of_signed ub]

theorem modulo_eq_truncated_remainder (ua : a.uns = false) (ub : b.uns = false) (nonzero : b.pat ≠ 0) :
    a.modulo b = .val (a.num - a.num.tdiv b.num * b.num) false := by
  rw [Value.modulo_of_signed ua nonzero, ofPat_of_signed ub, Int.tmod_def, mul_comm]

end readings

section accelerator
variable (al ah bl bh : Word)

/-- The integer of R311 whose two words a tag answers: the two patterns are read unsigned for the product and the
unsigned tags, signed for the others. -/
def accelLaw (tag : AccelTag) : Int :=
  let a (u : Bool) : Int := Value.num ⟨al, ah, u⟩
  let b (u : Bool) : Int := Value.num ⟨bl, bh, u⟩
  match tag with
  | .multiply => a true * b true
  | .signedDivide => (a false).tdiv (b false)
  | .unsignedDivide => a true / b true
  | .signedRemainder => a false - (a false).tdiv (b false) * b false
  | .unsignedRemainder => a true - a true / b true * b true

/-- The divisor of a tag that divides is not zero, in the pattern the command carries. -/
def DivisorNonzero (tag : AccelTag) : Prop := tag ≠ .multiply → Value.pat ⟨bl, bh, false⟩ ≠ 0

variable {al ah bl bh}

/-- Whether the divisor is zero does not depend on how it is read. -/
theorem num_words_eq_zero_iff (u : Bool) : Value.num ⟨bl, bh, u⟩ = 0 ↔ Value.pat ⟨bl, bh, false⟩ = 0 :=
  Value.num_eq_zero_iff ⟨bl, bh, u⟩

/-- R312: the command for a tag writes `val` of the law's integer, under the flag of its receiver. -/
theorem exec_accelCommand {tag : AccelTag} {s : State} (ready : s.err = .none) (divisor : DivisorNonzero bl bh tag) :
    ∃ u, exec (accelCommand tag al ah bl bh) s = .next (s.writeRes (.val (accelLaw al ah bl bh tag) u)) := by
  cases tag with
  | multiply =>
    refine ⟨false, ?_⟩
    rw [accelCommand, exec_mul_ready _ _ ready, receiver_lit,
      mulLimbs_eq_product (a := ⟨al, ah, false⟩) (a' := ⟨al, ah, true⟩) (b := ⟨bl, bh, false⟩) (b' := ⟨bl, bh, true⟩)
        rfl rfl rfl rfl, accelLaw]
  | signedDivide =>
    have nonzero := divisor (by decide)
    refine ⟨false, ?_⟩
    rw [accelCommand, exec_div_ready _ ready nonzero, receiver_lit, quotient_eq_truncated rfl rfl nonzero, accelLaw]
  | unsignedDivide =>
    have nonzero := divisor (by decide)
    refine ⟨true, ?_⟩
    rw [accelCommand, exec_div_ready _ ready nonzero, receiver_lit,
      quotient_eq_floor (a := ⟨al, ah, true⟩) (b := ⟨bl, bh, false⟩) (b' := ⟨bl, bh, true⟩) rfl rfl rfl nonzero,
      accelLaw]
  | signedRemainder =>
    have nonzero := divisor (by decide)
    refine ⟨false, ?_⟩
    rw [accelCommand, exec_mod_ready _ ready nonzero, receiver_lit, modulo_eq_truncated_remainder rfl rfl nonzero,
      accelLaw]
  | unsignedRemainder =>
    have nonzero := divisor (by decide)
    refine ⟨true, ?_⟩
    rw [accelCommand, exec_mod_ready _ ready nonzero, receiver_lit,
      modulo_eq_floor_remainder (a := ⟨al, ah, true⟩) (b := ⟨bl, bh, false⟩) (b' := ⟨bl, bh, true⟩) rfl rfl rfl nonzero,
      accelLaw]

/-- The same as the two words of `RES`. -/
theorem accelCommand_completes {tag : AccelTag} {s : State} (ready : s.err = .none)
    (divisor : DivisorNonzero bl bh tag) :
    ∃ t, exec (accelCommand tag al ah bl bh) s = .next t ∧ t.err = .none ∧
      t.res.low = BitVec.ofInt 32 (accelLaw al ah bl bh tag) ∧
      t.res.high = BitVec.ofInt 32 (accelLaw al ah bl bh tag / 2 ^ 32) := by
  obtain ⟨u, hu⟩ := exec_accelCommand ready divisor
  exact ⟨_, hu, State.writeRes_ready ready _, Value.val_low .., Value.val_high ..⟩

/-- Where the interface answers (R310), the divisor is not zero and the answer is the words of the law's integer. -/
theorem accelerate_eq_some {tag : AccelTag} {lo hi : Word} (h : accelerate tag al ah bl bh = some (lo, hi)) :
    DivisorNonzero bl bh tag ∧ lo = BitVec.ofInt 32 (accelLaw al ah bl bh tag) ∧
      hi = BitVec.ofInt 32 (accelLaw al ah bl bh tag / 2 ^ 32) := by
  cases tag with
  | multiply =>
    cases h
    exact ⟨fun divides => absurd rfl divides, rfl, rfl⟩
  | signedDivide =>
    simp only [accelerate] at h
    split at h
    · cases h
    next answers =>
      cases h
      exact ⟨fun _ => mt (num_words_eq_zero_iff false).2 (not_or.1 answers).1, rfl, rfl⟩
  | unsignedDivide | signedRemainder | unsignedRemainder =>
    simp only [accelerate] at h
    split at h
    · cases h
    next nonzero =>
      cases h
      exact ⟨fun _ => mt (num_words_eq_zero_iff _).2 nonzero, rfl, rfl⟩

end accelerator

/-- Settles O60: every clause is `accelCommand_completes` at its tag; the last takes its words from
`accelerate_eq_some`. -/
theorem blockServesAsTheAccelerator : Obligations.BlockServesAsTheAccelerator := by
  intro al ah bl bh s ready a b completes gives
  have law (tag : AccelTag) (divisor : DivisorNonzero bl bh tag) : gives tag (accelLaw al ah bl bh tag) :=
    accelCommand_completes ready divisor
  refine ⟨law .multiply fun divides => absurd rfl divides, fun hb => ?_, fun tag lo hi answer => ?_⟩
  · have divisor (tag : AccelTag) : DivisorNonzero bl bh tag := fun _ => mt (num_words_eq_zero_iff true).2 hb
    exact ⟨law .signedDivide (divisor _), law .unsignedDivide (divisor _), law .signedRemainder (divisor _),
      law .unsignedRemainder (divisor _)⟩
  · obtain ⟨divisor, rfl, rfl⟩ := accelerate_eq_some answer
    exact law tag divisor

end Sys2Proof.Machine
end

section
/-! PROOF. The text of a digit string and the way back (46_string_conversion.md R258, R259,
49_host_side_and_accelerator.md R290 to R296): the characters of a digit string pass the host's tests with its sign and
digits, the chunks of R294 add up to the number of the digits, and the commands of R296 compute what the host's parser computes. -/

namespace Sys2Proof

/-! ### The datapaths on `val` -/

theorem Value.val_mulLimbs (m n : Int) (u w : Bool) : (Value.val m u).mulLimbs (.val n w) = .val (m * n) u := by
  rw [Value.mulLimbs_eq_val, Nat.cast_mul]
  exact Value.val_congr u ((Value.val_pat_modEq m u).mul (Value.val_pat_modEq n w))

theorem Value.val_addLimbs (m n : Int) (u w : Bool) : (Value.val m u).addLimbs (.val n w) = .val (m + n) u := by
  rw [Value.addLimbs_eq_val, Nat.cast_add]
  exact Value.val_congr u ((Value.val_pat_modEq m u).add (Value.val_pat_modEq n w))

theorem Value.val_negate (n : Int) (u : Bool) : (Value.val n u).negate = .val (-n) u := by
  have wrap : (2 ^ 64 - (Value.val n u).pat.toNat : Int) ≡ 0 - (Value.val n u).pat.toNat [ZMOD 2 ^ 64] :=
    Int.ModEq.sub_right _ (by decide)
  rw [Value.negate_eq_val, ← zero_sub]
  exact Value.val_congr u (wrap.trans ((Value.val_pat_modEq n u).sub_left 0))

namespace Machine

/-! ### The number of a digit sequence -/

section digitsNumber
variable (r : Nat)

theorem digitsNumber_eq_ofDigits (ds : List Nat) : digitsNumber r ds = Nat.ofDigits r ds.reverse := by
  rw [digitsNumber, Nat.ofDigits_eq_foldr, List.foldr_reverse]
  simp only [Nat.cast_id, Nat.add_comm, Nat.mul_comm]

/-- Digits behind others move these up by their places. -/
theorem digitsNumber_append (front back : List Nat) :
    digitsNumber r (front ++ back) = digitsNumber r front * r ^ back.length + digitsNumber r back := by
  simp only [digitsNumber_eq_ofDigits, List.reverse_append, Nat.ofDigits_append, List.length_reverse]
  ring

/-- The pipeline's digits have the number it divided. -/
theorem digitsNumber_digitsOf {m : Nat} (hr : 2 ≤ r) (hb : m < 2 ^ 64) : digitsNumber r (digitsOf m r) = m := by
  rcases Nat.eq_zero_or_pos m with rfl | hm
  · rw [digitsOf_zero hr, digitsNumber, List.foldl_cons, List.foldl_nil, Nat.zero_mul]
  · rw [digitsNumber_eq_ofDigits, digitsOf_pos hr hm hb, List.reverse_reverse, Nat.ofDigits_digits]

/-- R294: the chunks add up to the number of all the digits, behind the number the parsing began with. -/
theorem parseChunks_eq_val (fuel : Nat) (ds : List Nat) (enough : ds.length ≤ fuel) (n : Int) (u : Bool) :
    parseChunks r fuel ds (.val n u) = .val (n * r ^ ds.length + digitsNumber r ds) u := by
  induction fuel generalizing ds n with
  | zero =>
    have empty : ds = [] := List.eq_nil_of_length_eq_zero (Nat.le_zero.1 enough)
    simp [empty, parseChunks, digitsNumber]
  | succ fuel ih =>
    cases ds with
    | nil => simp [parseChunks, digitsNumber]
    | cons d ds =>
      have shorter : ((d :: ds).drop 8).length ≤ fuel := by
        rw [List.length_drop]
        omega
      have joined : (d :: ds).take 8 ++ (d :: ds).drop 8 = d :: ds := List.take_append_drop 8 (d :: ds)
      rw [parseChunks, Value.val_mulLimbs, Value.val_addLimbs, ih _ shorter]
      generalize (d :: ds).take 8 = front, (d :: ds).drop 8 = back at joined ⊢
      rw [← joined, digitsNumber_append, List.length_append]
      congr 1
      push_cast
      ring

end digitsNumber

/-- R294: the Value of a sign and digits is `val` of their number. -/
theorem parseDigits_eq_val (negative u : Bool) (r : Nat) (ds : List Nat) :
    parseDigits negative u r ds = .val (if negative then -digitsNumber r ds else digitsNumber r ds) u := by
  have parsed := parseChunks_eq_val r ds.length ds le_rfl 0 u
  rw [zero_mul, zero_add] at parsed
  rw [parseDigits, parsed]
  cases negative with
  | true => exact Value.val_negate ..
  | false => rfl

/-- The sign and the digits of a Value's number give the Value back. -/
theorem parseDigits_digitsOf (v : Value) {r : Nat} (hr : 2 ≤ r) :
    parseDigits (decide (v.num < 0)) v.uns r (digitsOf v.num.natAbs r) = v := by
  have number : (if decide (v.num < 0) then -(v.num.natAbs : Int) else v.num.natAbs) = v.num := by
    simp only [decide_eq_true_eq]
    split <;> omega
  rw [parseDigits_eq_val, digitsNumber_digitsOf r hr v.num_natAbs_lt, number, Value.val_num]

/-! ### The characters of a digit string -/

section characters
variable (c : DigitCase)

theorem digitValue_digitChar : ∀ d < 36, digitValue (digitChar c d) = some d := by
  cases c <;> decide

theorem digitChar_ne_hyphen : ∀ d < 36, digitChar c d ≠ '-' := by
  cases c <;> decide

/-- A letter of the case that `DIGIT_CASE` does not use. -/
def isOtherCase (x : Char) : Bool :=
  match c with
  | .lower => x.isUpper
  | .upper => x.isLower

theorem digitChar_not_otherCase : ∀ d < 36, isOtherCase c (digitChar c d) = false := by
  cases c <;> decide

theorem hyphen_not_otherCase : isOtherCase c '-' = false := by
  cases c <;> decide

/-- The tokens of R291 mix the letter cases, and a text of digits does not. -/
theorem zeroToken_has_otherCase : ∀ t ∈ zeroTokens, t.any (isOtherCase c) = true := by
  cases c <;> decide

/-- The text of a sign and digits (R258). -/
def digitText (negative : Bool) (ds : List Nat) : List Char :=
  (if negative then ['-'] else []) ++ ds.map (digitChar c)

section digits
variable {r : Nat} {ds : List Nat}

theorem digitText_not_zeroToken (negative : Bool) (below : ∀ d ∈ ds, d < 36) :
    digitText c negative ds ∉ zeroTokens := by
  intro token
  obtain ⟨x, member, other⟩ := List.any_eq_true.1 (zeroToken_has_otherCase c _ token)
  refine Bool.eq_false_iff.1 ?_ other
  rcases List.mem_append.1 member with sign | digit
  · cases negative with
    | true => exact List.mem_singleton.1 sign ▸ hyphen_not_otherCase c
    | false => cases sign
  · obtain ⟨d, hd, rfl⟩ := List.mem_map.1 digit
    exact digitChar_not_otherCase c d (below d hd)

/-- Each character has its digit's value, whatever the letter case (R290). -/
theorem digitValues_digitChars (hr : r ≤ 36) (below : ∀ d ∈ ds, d < r) :
    digitValues r (ds.map (digitChar c)) = some ds := by
  induction ds with
  | nil => rfl
  | cons d ds ih =>
    obtain ⟨hd, hds⟩ := List.forall_mem_cons.1 below
    rw [List.map_cons, digitValues, digitValue_digitChar c d (hd.trans_le hr), ih hds]
    exact if_pos hd

theorem hyphen_not_mem_digitChars (below : ∀ d ∈ ds, d < 36) : '-' ∉ ds.map (digitChar c) := by
  intro member
  obtain ⟨d, hd, hyphen⟩ := List.mem_map.1 member
  exact digitChar_ne_hyphen c d (below d hd) hyphen

/-- What follows the sign is a text of digits that passes its tests. -/
theorem scanUnsigned_digitChars (hr : r ≤ 36) (below : ∀ d ∈ ds, d < r) (nonempty : ds ≠ []) :
    scanUnsigned r (ds.map (digitChar c)) = .ok ds := by
  have below' : ∀ d ∈ ds, d < 36 := fun d hd => (below d hd).trans_le hr
  have token : ds.map (digitChar c) ∉ zeroTokens := digitText_not_zeroToken c false below'
  rw [scanUnsigned, if_neg (mt List.map_eq_nil_iff.1 nonempty), if_neg token, digitValues_digitChars c hr below]

/-- The text of a sign and digits passes the host's tests, and these find the sign and the digits (R291, R293). -/
theorem scanText_digitText (tokensFirst negative : Bool) (hr : 2 ≤ r) (hr' : r ≤ 36) (below : ∀ d ∈ ds, d < r)
    (nonempty : ds ≠ []) : scanText tokensFirst (digitText c negative ds) r = .ok (negative, ds) := by
  have below' : ∀ d ∈ ds, d < 36 := fun d hd => (below d hd).trans_le hr'
  have token := digitText_not_zeroToken c negative below'
  have noHyphen := hyphen_not_mem_digitChars c below'
  have unsigned := scanUnsigned_digitChars c hr' below nonempty
  have legal : radixLegal r = true := radixLegal_iff.2 ⟨hr, hr'⟩
  cases negative with
  | true =>
    have text : digitText c true ds = '-' :: ds.map (digitChar c) := rfl
    rw [text] at token ⊢
    simp only [scanText, token, decide_false, Bool.and_false, Bool.false_eq_true, if_false, reduceCtorEq,
      Int.toNat_natCast, legal, Bool.not_true, List.drop_succ_cons, List.drop_zero, noHyphen, unsigned, Except.map]
  | false =>
    have text : digitText c false ds = ds.map (digitChar c) := rfl
    have nonempty' : ds.map (digitChar c) ≠ [] := mt List.map_eq_nil_iff.1 nonempty
    have interior : '-' ∉ (ds.map (digitChar c)).drop 1 := fun member => noHyphen (List.mem_of_mem_drop member)
    rw [text] at token ⊢
    simp only [scanText, token, decide_false, Bool.and_false, Bool.false_eq_true, if_false, nonempty',
      Int.toNat_natCast, legal, Bool.not_true, interior]
    split
    next rest signed => exact absurd (signed ▸ List.mem_cons_self) noHyphen
    next => rw [unsigned, Except.map]

end digits
end characters

/-- The digits of `DIG` up to `LEN` are the pipeline's. -/
theorem toDigits_digits (v : Value) {r : Nat} (hr : 2 ≤ r) (hr' : r ≤ 36) :
    ((toDigits v r).digits.toList.take (toDigits v r).len.toNat).map BitVec.toNat = digitsOf v.num.natAbs r := by
  have len := toDigits_len v hr
  have le := (toDigits_len_bounds v hr).2
  refine List.ext_getElem ?_ fun i hi hi' => ?_
  · rw [List.length_map, List.length_take, Vector.length_toList, Nat.min_eq_left le, len]
  · have inside : i < (toDigits v r).len.toNat := len ▸ hi'
    have digit := toDigits_digit v hr hr' ⟨i, by omega⟩ inside
    rw [List.getElem_map, List.getElem_take, Vector.getElem_toList, digitsOf_getElem hr v.num_natAbs_lt i hi', ← len]
    exact digit

/-- R258: TOSTR's digit string as text. -/
theorem render_toDigits (c : DigitCase) (v : Value) {r : Nat} (hr : 2 ≤ r) (hr' : r ≤ 36) :
    render c (toDigits v r) = digitText c (decide (v.num < 0)) (digitsOf v.num.natAbs r) := by
  have sign : (toDigits v r).neg = decide (v.num < 0) := by rw [Bool.eq_iff_iff, toDigits_neg_iff, decide_eq_true_iff]
  rw [render, digitText, ← toDigits_digits v hr hr', sign, List.map_map]
  rfl

theorem digitsOf_lt {m r : Nat} (hr : 2 ≤ r) (hb : m < 2 ^ 64) : ∀ d ∈ digitsOf m r, d < r := by
  intro d hd
  obtain ⟨i, hi, rfl⟩ := List.getElem_of_mem hd
  rw [digitsOf_getElem hr hb i hi]
  exact Nat.mod_lt _ (by omega)

theorem digitsOf_ne_nil {m r : Nat} (hr : 2 ≤ r) (hb : m < 2 ^ 64) : digitsOf m r ≠ [] := by
  rcases Nat.eq_zero_or_pos m with rfl | hm
  · rw [digitsOf_zero hr]
    exact List.cons_ne_nil 0 []
  · exact List.ne_nil_of_length_pos (length_digitsOf_bounds hr hm hb).1

/-- R259: the host reads the text of TOSTR's digits back as the Value. -/
theorem fromString_render (tokensFirst : Bool) (c : DigitCase) (v : Value) {r : Nat} (hr : 2 ≤ r) (hr' : r ≤ 36) :
    fromString tokensFirst (render c (toDigits v r)) v.uns r = .ok v := by
  have bound := v.num_natAbs_lt
  have scanned := scanText_digitText c tokensFirst (decide (v.num < 0)) hr hr' (digitsOf_lt hr bound)
    (digitsOf_ne_nil hr bound)
  have parsed := parseDigits_digitsOf v hr
  rw [render_toDigits c v hr hr', fromString, scanned, Except.map, Int.toNat_natCast]
  exact congrArg Except.ok parsed

/-! ### The commands of R296 -/

/-- R296: the commands for a sign and digits leave in `RES` the Value that the parser makes of them, and change nothing
else. -/
theorem digitsCommands_spec (negative u : Bool) (r : Nat) (ds : List Nat) {s : State} (ready : s.err = .none) :
    execAll (digitsCommands negative u r ds) s = .next { s with res := parseDigits negative u r ds } := by
  have chunks : execAll (.fromBits (.lit (.val 0 u)) :: chunkCommands r ds.length ds) s =
      .next (s.writeRes (parseChunks r ds.length ds (.val 0 u))) := by
    rw [execAll, exec_fromBits_ready _ ready]
    exact chunkCommands_spec r ds.length ds _ (State.writeRes_ready ready _)
  rw [digitsCommands, execAll_append _ _ chunks]
  cases negative with
  | false => rfl
  | true =>
    rw [if_pos rfl, execAll, exec_neg_ready .res (State.writeRes_ready ready _)]
    rfl

section fromString
variable (tokensFirst : Bool) (text : List Char) (u : Bool) (radix : Int)

/-- The host's tests fail with `fromString`, before any command. -/
theorem fromStringCommands_error {e : HostFailure} (h : fromString tokensFirst text u radix = .error e) :
    fromStringCommands tokensFirst text u radix = .error e := by
  rw [fromString] at h
  rw [fromStringCommands]
  cases scan : scanText tokensFirst text radix with
  | error e' =>
    rw [scan] at h
    cases h
    rfl
  | ok found =>
    rw [scan] at h
    cases h

/-- Where `fromString` gives a Value, the commands leave it in `RES`. -/
theorem fromStringCommands_ok {v : Value} (h : fromString tokensFirst text u radix = .ok v) {s : State}
    (ready : s.err = .none) :
    ∃ is, fromStringCommands tokensFirst text u radix = .ok is ∧ execAll is s = .next { s with res := v } := by
  rw [fromString] at h
  rw [fromStringCommands]
  cases scan : scanText tokensFirst text radix with
  | error e =>
    rw [scan] at h
    cases h
  | ok found =>
    rw [scan] at h
    cases h
    exact ⟨_, rfl, digitsCommands_spec _ u _ _ ready⟩

end fromString

/-! ### The statements -/

/-- Settles O55: TOSTR completes with the digit string whose text `fromString_render` reads back. -/
theorem stringRoundTrip : Obligations.StringRoundTrip :=
  fun v _ c tokensFirst _ ready hr hr' =>
    ⟨_, exec_toStr_ready (.lit v) ready hr hr', fromString_render tokensFirst c v hr hr'⟩

/-- Settles O56: the two outcomes of the host's tests, and for TOSTR's text the outcome that `fromString_render`
gives. -/
theorem blockRealisesFromString : Obligations.BlockRealisesFromString := by
  refine ⟨fun tokensFirst text u radix s ready => ⟨fun e => fromStringCommands_error tokensFirst text u radix,
    fun v h => fromStringCommands_ok tokensFirst text u radix h ready⟩, fun v r c tokensFirst s ready hr hr' => ?_⟩
  obtain ⟨is, commands, performed⟩ := fromStringCommands_ok (s := s.writeDig (toDigits v r)) tokensFirst _ v.uns r
    (fromString_render tokensFirst c v hr hr') ready
  exact ⟨_, is, exec_toStr_ready (.lit v) ready hr hr', commands, performed⟩

end Machine
end Sys2Proof
end
